-- ==== Sys2Proof/Word.lean ====
section
/-! DEFINITION. The value types of the block: Word16, the 40-bit command and response words, the 8-bit opcode and the
1-bit flag (00_scope.md R7, R9, R10; 30_encoding.md R36, R42). -/

namespace Sys2Proof

/-- "a 16-bit unsigned integer value (range 0–65535)" (R7). Bit 0 is the least significant (R9). -/
abbrev Word16 := BitVec 16

/-- A command word (R36) or a response word (R42): 40 bits that move as one value (R30). -/
abbrev Word40 := BitVec 40

/-- The carry flag and the divider's own flag: clear is `false`, set is `true` (R17). -/
abbrev Flag := Bool

end Sys2Proof
end

