-- ==== Sys2Proof/Syntax.lean ====
section
/-! DEFINITION. The five commands (30_encoding.md R38), one constructor per row of spec/opcode_table.json. An operand is a
Word16, so a term of `Instr` carries its own well-formedness (R37); the checks on raw command words and on an assembler's
numbers are in WellFormed.lean. -/

namespace Sys2Proof

/-- A legal command with its operands. -/
inductive Instr where
  /-- `CLEAR`: clear the carry flag (R50) -/
  | clear
  /-- `SET`: set the carry flag (R51) -/
  | set
  /-- `READ`: read the carry flag (R52) -/
  | read
  /-- `ROL a`: rotate `a` left through the carry flag (R55) -/
  | rol (a : Word16)
  /-- `DIVMOD a, b`: divide the dividend `a` by the divisor `b` (R60) -/
  | divmod (a b : Word16)
  deriving DecidableEq, Repr

end Sys2Proof
end

