-- ==== Sys2Proof/WellFormed.lean ====
section
/-! DEFINITION. The checks that make a raw command word legal (30_encoding.md R38, R39, R41) and an assembler's number an
operand (R47). -/

namespace Sys2Proof

/-- The three fields of a command word (R36), before anything is known of them. -/
structure CommandFields where
  /-- `cmd[39:32]` -/
  op : BitVec 8
  /-- `cmd[31:16]` -/
  b : Word16
  /-- `cmd[15:0]` -/
  a : Word16
  deriving DecidableEq, Repr

/-- The opcode is one of the map of R38: 0x01 to 0x05. -/
def opcodeAssigned (f : CommandFields) : Bool := decide (1 ≤ f.op.toNat ∧ f.op.toNat ≤ 5)

/-- `B` is zero for every opcode but DIVMOD's (R36, R39). -/
def bFieldLegal (f : CommandFields) : Bool := f.op == 5#8 || f.b == 0#16

/-- `A` is zero for CLEAR, SET and READ (R36, R39). -/
def aFieldLegal (f : CommandFields) : Bool := f.op == 5#8 || f.op == 4#8 || f.a == 0#16

/-- A legal command word (R41): an assigned opcode with every must-be-zero field zero. -/
def commandLegal (f : CommandFields) : Bool := opcodeAssigned f && bFieldLegal f && aFieldLegal f

/-- A number the assembler takes as an operand (R47). -/
def operandInRange (n : Nat) : Bool := decide (n ≤ 65535)

end Sys2Proof
end

