-- ==== Sys2Proof/Decode.lean ====
section
/-! DEFINITION. The command word's fields, the decoder, total on every 40-bit word (30_encoding.md R36 to R41), and the
encoder (R48). -/

namespace Sys2Proof

/-- Why a command word decodes to no command (R41). All three raise IllegalCommand (R81). -/
inductive DecodeError where
  /-- `OP` = 0x00 or 0x06 to 0xFF -/
  | unassignedOpcode (op : BitVec 8)
  /-- `B` is not zero where it must be -/
  | nonzeroB
  /-- `A` is not zero where it must be -/
  | nonzeroA
  deriving DecidableEq, Repr

/-- `OP = cmd[39:32]` (R36). -/
def opField (w : Word40) : BitVec 8 := w.extractLsb' 32 8

/-- `B = cmd[31:16]` (R37). -/
def bField (w : Word40) : Word16 := w.extractLsb' 16 16

/-- `A = cmd[15:0]` (R37). -/
def aField (w : Word40) : Word16 := w.extractLsb' 0 16

/-- The fields of a command word (R36). -/
def splitCommand (w : Word40) : CommandFields := ⟨opField w, bField w, aField w⟩

/-- The command word with the given fields (R36): `OP`, then `B`, then `A`, from the top bit down. -/
def joinCommand (f : CommandFields) : Word40 := f.op ++ f.b ++ f.a

/-- The name of what is wrong with fields that R40 maps to `Illegal`. -/
def illegalReason (f : CommandFields) : DecodeError :=
  if opcodeAssigned f then
    if bFieldLegal f then .nonzeroA else .nonzeroB
  else .unassignedOpcode f.op

/-- The decoder of R40 on a word's fields. -/
def decodeFields (f : CommandFields) : Except DecodeError Instr :=
  if f.op = 0x01#8 ∧ f.a = 0 ∧ f.b = 0 then .ok .clear
  else if f.op = 0x02#8 ∧ f.a = 0 ∧ f.b = 0 then .ok .set
  else if f.op = 0x03#8 ∧ f.a = 0 ∧ f.b = 0 then .ok .read
  else if f.op = 0x04#8 ∧ f.b = 0 then .ok (.rol f.a)
  else if f.op = 0x05#8 then .ok (.divmod f.a f.b)
  else .error (illegalReason f)

/-- The decoder of R40: every 40-bit word is one of the five commands or is rejected by name. -/
def decodeWord (w : Word40) : Except DecodeError Instr := decodeFields (splitCommand w)

/-- The fields of a command, from the rows of R38 and R48. -/
def encodeFields : Instr → CommandFields
  | .clear => ⟨0x01#8, 0, 0⟩
  | .set => ⟨0x02#8, 0, 0⟩
  | .read => ⟨0x03#8, 0, 0⟩
  | .rol a => ⟨0x04#8, 0, a⟩
  | .divmod a b => ⟨0x05#8, b, a⟩

/-- The one command word of a command (R48, R49). -/
def encode (i : Instr) : Word40 := joinCommand (encodeFields i)

/-- The command that the decoder reads from a word given as a number of at most 40 bits. The block has one word per command
and moves it whole (R30, R45), so the table's bit `n` is the word's bit `n`. -/
def decodeTableWord (nbits w : Nat) : Option Instr :=
  if nbits ≤ 40 ∧ w < 2 ^ nbits then
    match decodeWord (BitVec.ofNat 40 w) with
    | .ok i => some i
    | .error _ => none
  else none

end Sys2Proof
end

