-- ==== Sys2Proof/Machine/Operands.lean ====
section
/-! DEFINITION. The operand forms (30_encoding.md R37): there is one, a Word16 in a field of the command word, taken as it
stands. The block has no register operand, immediate shorter than 16 bits or address (R14, R29, R37). -/

namespace Sys2Proof.Machine

/-- The first operand of a command word: DIVMOD's dividend, ROL's value (R36, R37). -/
def operandA (w : Word40) : Word16 := aField w

/-- The second operand of a command word: DIVMOD's divisor (R36, R37). -/
def operandB (w : Word40) : Word16 := bField w

/-- `b2u` (R10): 1 when the flag is set and 0 when it is clear. -/
def b2u (c : Flag) : Nat := if c then 1 else 0

/-- `trunc16(x) = x mod 2^16` (R10). -/
def trunc16 (x : Nat) : Word16 := BitVec.ofNat 16 x

/-- `zext_16` of a flag (R10, R52). -/
def zext16 (c : Flag) : Word16 := trunc16 (b2u c)

end Sys2Proof.Machine
end

