-- ==== Sys2Proof/Machine/Response.lean ====
section
/-! DEFINITION. The response word (30_encoding.md R42 to R44): how the block builds one, and how a host reads one. -/

namespace Sys2Proof.Machine

/-- The outcomes a response names (R43). -/
inductive Status where
  | ok
  | divByZero
  | illegalCommand
  deriving DecidableEq, Repr

/-- The `STATUS` codes of R43. -/
def statusCode : Status → BitVec 4
  | .ok => 0
  | .divByZero => 1
  | .illegalCommand => 2

/-- The response word of R42: `STATUS`, three reserved zeros, `CF`, `Y1`, `Y0`, from the top bit down. -/
def responseWord (status : Status) (cf : Flag) (y1 y0 : Word16) : Word40 :=
  statusCode status ++ 0#3 ++ BitVec.ofBool cf ++ y1 ++ y0

/-- `STATUS = rsp[39:36]` as a host reads it. -/
def rspStatus (w : Word40) : BitVec 4 := w.extractLsb' 36 4

/-- `rsp[35:33]`, reserved. -/
def rspReserved (w : Word40) : BitVec 3 := w.extractLsb' 33 3

/-- `CF = rsp[32]`. -/
def rspCF (w : Word40) : Flag := w.getLsbD 32

/-- `Y1 = rsp[31:16]`: DIVMOD's remainder. -/
def rspY1 (w : Word40) : Word16 := w.extractLsb' 16 16

/-- `Y0 = rsp[15:0]`: DIVMOD's quotient, ROL's value, READ's flag. -/
def rspY0 (w : Word40) : Word16 := w.extractLsb' 0 16

/-- The status a code stands for; codes 3 to 15 are reserved (R43). -/
def statusOfCode (code : BitVec 4) : Option Status :=
  if code = 0 then some .ok
  else if code = 1 then some .divByZero
  else if code = 2 then some .illegalCommand
  else none

/-- A response as the host reads it. -/
structure HostResponse where
  status : Status
  cf : Flag
  y1 : Word16
  y0 : Word16
  deriving DecidableEq, Repr

/-- What a host makes of a 40-bit word given as a response: a word with a reserved status code or a reserved bit set is refused as
impossible (R44, U9). -/
def hostReads (w : Word40) : Option HostResponse :=
  if rspReserved w = 0 then
    (statusOfCode (rspStatus w)).map fun st => ⟨st, rspCF w, rspY1 w, rspY0 w⟩
  else none

end Sys2Proof.Machine
end

