-- ==== Sys2Proof/Config.lean ====
section
/-! DEFINITION. What an instance of the block fixes (00_scope.md R8), and the free values: constants with no body, of which
nothing can be proved but their type. -/

namespace Sys2Proof.Config

/-- `div0_policy` (R8): DIVMOD with divisor 0 raises DivisionByZero (R69) or runs the algorithm unguarded (R70). -/
inductive Div0Policy where
  | fault
  | raw
  deriving DecidableEq, Repr

/-- Which of the two equivalent forms of R78 the model runs a DIVMOD in: one atomic step, or the internal micro-steps one
a step. DESIGN CHOICE, log entry 9. -/
inductive DivmodForm where
  | atomic
  | stepped
  deriving DecidableEq, Repr

/-- The named parameters of R8 that some rule reads, and the form of R78. They are fixed for an instance and are no state of
the block (R13); they stand in `State` because a meaning sees only the instruction and the state (DESIGN CHOICE, log
entry 1). -/
structure Params where
  /-- `div0_policy` -/
  div0Policy : Div0Policy
  /-- `divmod_shares_carry` -/
  divmodSharesCarry : Bool
  /-- `carry_reset`: `some false`, `some true`, or `none` for a value the spec leaves unspecified (R26) -/
  carryReset : Option Flag
  /-- the form of R78 the model runs -/
  divmodForm : DivmodForm
  deriving DecidableEq, Repr

/-- The spec's defaults (R8), and the atomic form of DIVMOD (log entry 9). -/
def defaultParams : Params where
  div0Policy := .fault
  divmodSharesCarry := false
  carryReset := some false
  divmodForm := .atomic

/-- Free value: what `C` holds after a reset when `carry_reset = none` (R26, U4; log entry 7). -/
opaque freeCarry : Nat → Flag

/-- Free value: the quotient register while the divider is idle (R27, U5; log entry 6). -/
opaque freeQ : Nat → Word16

/-- Free value: the remainder register while the divider is idle (R27, U5; log entry 6). -/
opaque freeR : Nat → Word16

/-- Free value: the divider's flag while the divider is idle (R27, U5; log entry 6). -/
opaque freeF : Nat → Flag

/-- Free value: the step counter while the divider is idle, within its range 0 to 17 (R22, R27, U5; log entry 6). -/
opaque freeK : Nat → Fin 18

/-- The five commands as an index for `latency`. -/
inductive Command where
  | clear
  | set
  | read
  | rol
  | divmod
  deriving DecidableEq, Repr

/-- Free value: `latency_<cmd>` less one. -/
opaque latencyBeyondOne : Command → Nat

/-- `latency_<cmd>` (R8, R105): a number of cycles, at least 1, the same for every operand. No rule reads it (log entry 14). -/
def latency (c : Command) : Nat := latencyBeyondOne c + 1

/-- `host_byte_order` (R8, R30): which byte of a 40-bit word a platform carries at each place. No rule reads it (log
entry 14). -/
opaque hostByteOrder : Equiv.Perm (Fin 5)

end Sys2Proof.Config
end

