-- ==== Sys2Proof/Machine/State.lean ====
section
/-! DEFINITION. The state of one instance (10_state.md R13), the host's actions it has yet to see, the outcomes of a step that
are no next state, and the state after reset (70_reset_and_hazards.md R97). -/

namespace Sys2Proof.Machine

/-- The divider's registers (R22). -/
structure DivRegs where
  /-- `Q`, the running quotient -/
  q : Word16
  /-- `R`, the running remainder -/
  r : Word16
  /-- `F`, the divider's own carry/borrow flag -/
  f : Flag
  /-- `k`, the step counter: completed iterations 0 to 16, then 17 after the closing rotate -/
  k : Nat
  deriving DecidableEq, Repr

/-- The three steps of an iteration (R62, R63, R64). -/
inductive IterStep where
  | a
  | b
  | c
  deriving DecidableEq, Repr

/-- The divider phases of R78. The `k` of `Iter(k, x)` is the register `k`. -/
inductive Phase where
  | idle
  | iter (step : IterStep)
  | close
  | done
  deriving DecidableEq, Repr

/-- What the host does in one step (R99). -/
inductive HostAction where
  /-- nothing: the host waits -/
  | wait
  /-- issues a command word -/
  | command (w : Word40)
  /-- issues a command word, and the reset event comes before its response (R96) -/
  | aborted (w : Word40)
  /-- the reset event (R95) -/
  | reset
  deriving DecidableEq, Repr

/-- One instance of the block with its host. `c`, `div`, `phase` and `outstanding` are the block's (R13, R78, R97); `params` are
the instance's parameters; `inputs`, `responses` and `draws` are the model's own. -/
structure State where
  /-- the instance's parameters, which no step changes (R8, R99) -/
  params : Config.Params
  /-- `C`, the carry flag register (R17) -/
  c : Flag
  /-- `Q`, `R`, `F` and `k` (R22) -/
  div : DivRegs
  /-- the divider phase (R78) -/
  phase : Phase
  /-- the command accepted and not yet answered (R32, R97): in the atomic form there is none between steps -/
  outstanding : Option Word40
  /-- what the host is still going to do, one action a step; when the list is empty the host waits -/
  inputs : List HostAction
  /-- every response word so far, oldest first: the trace of R94 and R106 -/
  responses : List Word40
  /-- how many times free values have been drawn -/
  draws : Nat
  deriving DecidableEq, Repr

/-- Why the machine stops. No state that a run reaches raises either (`MachineInv` in Safety.lean). -/
inductive Fault where
  /-- Raised by `dividerTick` in a phase `Iter(k, x)` with `k` not below 16: R78 has no row for it. Safe. -/
  | phaseOutsideTable
  /-- Raised by `dividerTick` at step c with no outstanding command to take the divisor from. Safe. -/
  | noOutstandingCommand
  deriving DecidableEq, Repr

/-- Why a step is given no meaning. -/
inductive Refusal where
  /-- Raised by no arm of `exec`: every command has its meaning. Safe. -/
  | notModelled (mnemonic : String)
  /-- Raised by `acceptCommand` and `acceptAborted` when the host issues a command before the previous response: "outside this
  spec: a model gives such a run no meaning" (R99, U10). Safe. -/
  | hostOverlap
  deriving DecidableEq, Repr

/-- The value of `C` after a reset (R26): the parameter's, or the free value of draw `n` where the parameter is `none`. -/
def carryAfterReset (p : Config.Params) (n : Nat) : Flag :=
  match p.carryReset with
  | some v => v
  | none => Config.freeCarry n

/-- An instance with parameters `p` right after power-on (R97), with no host action and no response yet. `Q`, `R`, `F` and `k`
are unspecified there (R27); zero is a DESIGN CHOICE, log entry 5. -/
def State.powerOn (p : Config.Params) : State where
  params := p
  c := carryAfterReset p 0
  div := ⟨0, 0, false, 0⟩
  phase := .idle
  outstanding := none
  inputs := []
  responses := []
  draws := 1

/-- The machine right after reset, with the spec's default parameters (R8). -/
def State.reset : State := State.powerOn Config.defaultParams

end Sys2Proof.Machine
end

