-- ==== Sys2Proof/Machine/Ops.lean ====
section
/-! DEFINITION. The named operations over the state: the carry flag register, the response, raising an exception, the reset
event and the divider going idle. There is no memory (20_memory.md R28) and no return from an exception, since there is no
handler (60_exceptions.md R84, R85). -/

namespace Sys2Proof.Machine

/-- `C <- v` (R11, R17). -/
def writeC (v : Flag) (s : State) : State := { s with c := v }

/-- `respond(status, cf, y1, y0)` (R11, R42): one response word, after every earlier one (R33). -/
def respond (status : Status) (cf : Flag) (y1 y0 : Word16) (s : State) : State :=
  { s with responses := s.responses ++ [responseWord status cf y1 y0] }

/-- The two exceptions (R79). -/
inductive Exception where
  | divisionByZero
  | illegalCommand
  deriving DecidableEq, Repr

/-- The `STATUS` an exception reports (R79). -/
def exceptionStatus : Exception → Status
  | .divisionByZero => .divByZero
  | .illegalCommand => .illegalCommand

/-- Taking an exception (R82): the response `(code, C, 0, 0)` and no other change. The block goes on to the next command (R85), so
this is a next state; log entry 4. -/
def raiseException (e : Exception) (s : State) : State := respond (exceptionStatus e) s.c 0 0 s

/-- The values `Q`, `R`, `F` and `k` hold while the divider is idle after draw `n`: free values (R27, U5; log entry 6). -/
def idleDivRegs (n : Nat) : DivRegs where
  q := Config.freeQ n
  r := Config.freeR n
  f := Config.freeF n
  k := (Config.freeK n).val

/-- The divider goes `Idle` and discards `Q`, `R`, `F` and `k` (R23, R78), with no command outstanding. -/
def discardDivider (s : State) : State :=
  { s with div := idleDivRegs s.draws, phase := .idle, outstanding := none, draws := s.draws + 1 }

/-- The reset event (R95): `C <- carry_reset`, the divider `Idle`, whatever the phase; no response. -/
def resetEvent (s : State) : State := discardDivider (writeC (carryAfterReset s.params s.draws) s)

end Sys2Proof.Machine
end

