-- ==== Sys2Proof/Machine/CarryFlag.lean ====
section
/-! DEFINITION. The carry flag commands (40_carry_flag.md). -/

namespace Sys2Proof.Machine

/-- `CLEAR` (R50). -/
def execClear (s : State) : Host.Outcome State Fault Refusal :=
  .next (respond .ok false 0 0 (writeC false s))

/-- `SET` (R51). -/
def execSet (s : State) : Host.Outcome State Fault Refusal :=
  .next (respond .ok true 0 0 (writeC true s))

/-- `READ` (R52). -/
def execRead (s : State) : Host.Outcome State Fault Refusal :=
  .next (respond .ok s.c 0 (zext16 s.c) s)

end Sys2Proof.Machine
end

