-- ==== Sys2Proof/Machine/Flags.lean ====
section
/-! DEFINITION. How a flag is computed: the carry a rotate shifts out (41_rotate_left.md R54) and the "no borrow" flag of the
conditional subtraction (42_divmod.md R64). -/

namespace Sys2Proof.Machine

/-- The outgoing carry of a rotate: "bit 15 (0x8000)" of the old value (R54). -/
def carryOut (v : Word16) : Flag := v.getLsbD 15

/-- "no borrow occurred": the unsigned comparison `r >= d` of step c (R64, R10). -/
def noBorrow (r d : Word16) : Flag := decide (d.toNat ≤ r.toNat)

end Sys2Proof.Machine
end

