-- ==== Sys2Proof/Machine/Rotate.lean ====
section
/-! DEFINITION. The rotate-left-through-carry unit (41_rotate_left.md): the pure function `rol16`, which the divider uses too, and
the command `ROL`. -/

namespace Sys2Proof.Machine

/-- `rol16(v, c)` (R54): the value shifted left by one with the old flag in bit 0, and the old bit 15 as the new flag. The sum is
exact before it is truncated. -/
def rol16 (v : Word16) (c : Flag) : Word16 × Flag := (trunc16 (2 * v.toNat + b2u c), carryOut v)

/-- `ROL a` (R55): reads `C` before it writes it. -/
def execRol (a : Word16) (s : State) : Host.Outcome State Fault Refusal :=
  let out := rol16 a s.c
  .next (respond .ok out.2 0 out.1 (writeC out.2 s))

end Sys2Proof.Machine
end

