-- ==== Sys2Proof/Machine/Divide.lean ====
section
/-! DEFINITION. The restoring divider (42_divmod.md): the algorithm's steps, the command `DIVMOD` as one step, and the same
command as the internal micro-steps of R78. -/

namespace Sys2Proof.Machine

/-! ## The algorithm (R61 to R66) -/

/-- Initialisation (R61). -/
def divInit (n : Word16) : DivRegs := ⟨n, 0, false, 0⟩

/-- Step a (R62): rotate the quotient, the last outcome in, its old bit 15 out. -/
def divStepA (v : DivRegs) : DivRegs :=
  let out := rol16 v.q v.f
  { v with q := out.1, f := out.2 }

/-- Step b (R63): rotate the remainder, step a's bit in. -/
def divStepB (v : DivRegs) : DivRegs :=
  let out := rol16 v.r v.f
  { v with r := out.1, f := out.2 }

/-- Step c (R64): subtract the divisor if it fits, record whether it did, count the iteration. -/
def divStepC (d : Word16) (v : DivRegs) : DivRegs :=
  if noBorrow v.r d then { v with r := v.r - d, f := true, k := v.k + 1 }
  else { v with f := false, k := v.k + 1 }

/-- One iteration: a, b, c in this order (R67). -/
def divIteration (d : Word16) (v : DivRegs) : DivRegs := divStepC d (divStepB (divStepA v))

/-- The first `j` iterations (R64: 16 in a whole division). -/
def divIterations (d : Word16) : Nat → DivRegs → DivRegs
  | 0, v => v
  | j + 1, v => divIteration d (divIterations d j v)

/-- The closing rotate (R65). -/
def divClose (v : DivRegs) : DivRegs :=
  let out := rol16 v.q v.f
  { v with q := out.1, f := out.2, k := 17 }

/-- The divider's registers at the end of a division of `n` by `d` (R61 to R65). -/
def divRun (n d : Word16) : DivRegs := divClose (divIterations d 16 (divInit n))

/-- `divcore(n, d)` (R66): quotient and remainder. -/
def divcore (n d : Word16) : Word16 × Word16 := ((divRun n d).q, (divRun n d).r)

/-! ## The command -/

/-- DIVMOD raises DivisionByZero (R69, R80). -/
def divisionTraps (b : Word16) (s : State) : Bool := b == 0 && s.params.div0Policy == .fault

/-- The end of a DIVMOD whose divider holds `v` (R60, R68; `Done` in R78): `C <- F` if the instance shares the carry, the response
with quotient and remainder, and the divider's registers discarded. -/
def finishDivision (v : DivRegs) (s : State) : State :=
  let s' := if s.params.divmodSharesCarry then writeC v.f s else s
  discardDivider (respond .ok s'.c v.r v.q s')

/-- `DIVMOD a, b` (R60), as one atomic step (R78). -/
def execDivmod (a b : Word16) (s : State) : Host.Outcome State Fault Refusal :=
  if divisionTraps b s then .next (raiseException .divisionByZero s)
  else .next (finishDivision (divRun a b) s)

/-! ## The step-level form (R78) -/

/-- `Idle`, the DIVMOD of command word `w` accepted: initialisation (R61), to `Iter(0, a)`. The word stays outstanding, and the
divisor is read from it (R25; DEDUCED, log entry 12). -/
def beginDivision (w : Word40) (s : State) : State :=
  { s with div := divInit (operandA w), phase := .iter .a, outstanding := some w }

/-- One internal step of the block with no host action: the row of R78 for its phase. Idle, it holds its state (R93). -/
def dividerTick (s : State) : Host.Outcome State Fault Refusal :=
  match s.phase with
  | .idle => .next s
  | .iter .a =>
    if s.div.k < 16 then .next { s with div := divStepA s.div, phase := .iter .b }
    else .fault .phaseOutsideTable
  | .iter .b =>
    if s.div.k < 16 then .next { s with div := divStepB s.div, phase := .iter .c }
    else .fault .phaseOutsideTable
  | .iter .c =>
    if s.div.k < 16 then
      match s.outstanding with
      | none => .fault .noOutstandingCommand
      | some w =>
        let v := divStepC (operandB w) s.div
        .next { s with div := v, phase := if v.k < 16 then .iter .a else .close }
    else .fault .phaseOutsideTable
  | .close => .next { s with div := divClose s.div, phase := .done }
  | .done => .next (finishDivision s.div s)

end Sys2Proof.Machine
end

