-- ==== Sys2Proof/Machine/Dispatch.lean ====
section
/-! DEFINITION. What each command does: one arm per constructor of `Instr`. -/

namespace Sys2Proof.Machine

/-- The effect of one accepted command. -/
def exec (i : Instr) (s : State) : Host.Outcome State Fault Refusal :=
  match i with
  | .clear => Sys2Proof.Machine.execClear s
  | .set => Sys2Proof.Machine.execSet s
  | .read => Sys2Proof.Machine.execRead s
  | .rol a => Sys2Proof.Machine.execRol a s
  | .divmod a b => Sys2Proof.Machine.execDivmod a b s

end Sys2Proof.Machine
end

