-- ==== Sys2Proof/Machine/Accept.lean ====
section
/-! DEFINITION. How the block takes what the host sends it (20_memory.md R32, 70_reset_and_hazards.md R99). -/

namespace Sys2Proof.Machine

/-- The instance runs this command in the step-level form of R78: a DIVMOD that raises no exception, where the instance's form is
`stepped`. -/
def runsStepped (i : Instr) (s : State) : Bool :=
  match i with
  | .divmod _ b => s.params.divmodForm == .stepped && !divisionTraps b s
  | .clear => false
  | .set => false
  | .read => false
  | .rol _ => false

/-- The host issues a command word. Idle, the block decodes it first (R83) and raises IllegalCommand or runs the command; busy, it
accepts none (R32), and a host that issues one is given no meaning (R99, U10). -/
def acceptCommand (w : Word40) (s : State) : Host.Outcome State Fault Refusal :=
  match s.phase with
  | .idle =>
    match decodeWord w with
    | .error _ => .next (raiseException .illegalCommand s)
    | .ok i => if runsStepped i s then .next (beginDivision w s) else exec i s
  | .iter _ => .refused .hostOverlap
  | .close => .refused .hostOverlap
  | .done => .refused .hostOverlap

/-- The host issues a command word and the reset event comes before its response (R96): no response, and every effect the command
had is overridden by the reset. -/
def acceptAborted (s : State) : Host.Outcome State Fault Refusal :=
  match s.phase with
  | .idle => .next (resetEvent s)
  | .iter _ => .refused .hostOverlap
  | .close => .refused .hostOverlap
  | .done => .refused .hostOverlap

/-- The host's next action is taken out of its list. -/
def dropInput (s : State) : State := { s with inputs := s.inputs.tail }

end Sys2Proof.Machine
end

