-- ==== Sys2Proof/Machine/Step.lean ====
section
/-! DEFINITION. One step: the host's next action and what the block does with it; with none, the block's own internal step. -/

namespace Sys2Proof.Machine

/-- One step of the instance and its host. -/
def step (s : State) : Host.Outcome State Fault Refusal :=
  match s.inputs with
  | [] => dividerTick s
  | .wait :: _ => dividerTick (dropInput s)
  | .command w :: _ => acceptCommand w (dropInput s)
  | .aborted _ :: _ => acceptAborted (dropInput s)
  | .reset :: _ => .next (resetEvent (dropInput s))

/-- The state in which the host's next action is to issue the word of `nbits` bits numbered `w`, and the block is ready for it:
the block fetches nothing (10_state.md R15), so this stands for the host's side of R99 (log entry 16). -/
def State.withFetchWord (s : State) (nbits w : Nat) : State :=
  { s with
    inputs := .command (BitVec.ofNat 40 (w % 2 ^ nbits)) :: s.inputs
    phase := .idle
    outstanding := none }

end Sys2Proof.Machine
end

