-- ==== Sys2Proof/Machine/Assembler.lean ====
section
/-! DEFINITION. The assembler (30_encoding.md R47 to R49): a line of characters to at most one command. What R47 leaves open (which
characters are blank, where blanks may stand, the case of hexadecimal digits, lines with no command, which error a line gives) is
log entry 15. -/

namespace Sys2Proof.Machine

/-- An assembly error. -/
inductive AsmError where
  /-- the line's first word is none of the five mnemonics -/
  | unknownMnemonic
  /-- the mnemonic takes another number of operands -/
  | operandCount
  /-- an operand is neither a decimal nor a `0x` hexadecimal number -/
  | badNumber
  /-- an operand is above 65535 -/
  | operandRange
  deriving DecidableEq, Repr

/-- A character that only separates. DESIGN CHOICE, log entry 15. -/
def isBlank (ch : Char) : Bool := ch == ' ' || ch == '\t' || ch == '\r'

/-- The text before a comment: "`;` starts a comment that runs to the end of the line" (R47). -/
def stripComment (line : List Char) : List Char := line.takeWhile (· != ';')

/-- Text without the blanks around it. That blanks may stand there is DESIGN CHOICE, log entry 15. -/
def trimBlanks (cs : List Char) : List Char := ((cs.dropWhile isBlank).reverse.dropWhile isBlank).reverse

/-- The value of a digit in the given base. -/
def digitValue (base : Nat) (ch : Char) : Option Nat :=
  let v :=
    if '0' ≤ ch ∧ ch ≤ '9' then some (ch.toNat - 48)
    else if 'a' ≤ ch ∧ ch ≤ 'f' then some (ch.toNat - 87)
    else if 'A' ≤ ch ∧ ch ≤ 'F' then some (ch.toNat - 55)
    else none
  v.filter (· < base)

/-- The digits read so far stand for `acc`; the rest are read after them. -/
def digitsFrom (base : Nat) : Nat → List Char → Option Nat
  | acc, [] => some acc
  | acc, ch :: cs =>
    match digitValue base ch with
    | none => none
    | some v => digitsFrom base (acc * base + v) cs

/-- One digit or more. -/
def digitsValue (base : Nat) (cs : List Char) : Option Nat :=
  if cs.isEmpty then none else digitsFrom base 0 cs

/-- A number "in decimal (`95`) or in hexadecimal with a `0x` prefix (`0x005F`)" (R47). -/
def parseNumber : List Char → Option Nat
  | '0' :: 'x' :: digits => digitsValue 16 digits
  | digits => digitsValue 10 digits

/-- An operand: a number from 0 to 65535 (R47). -/
def parseOperand (cs : List Char) : Except AsmError Word16 :=
  match parseNumber cs with
  | none => .error .badNumber
  | some n => if operandInRange n then .ok (BitVec.ofNat 16 n) else .error .operandRange

/-- Text cut at its commas. -/
def splitCommas : List Char → List (List Char)
  | [] => [[]]
  | ch :: cs =>
    if ch = ',' then [] :: splitCommas cs
    else
      match splitCommas cs with
      | [] => [[ch]]
      | piece :: pieces => (ch :: piece) :: pieces

/-- The operands' texts after a mnemonic, without the blanks around each: none where nothing but blanks follows it. That blanks may
stand around an operand and its comma is DESIGN CHOICE, log entry 15. -/
def operandTexts (cs : List Char) : List (List Char) :=
  if (trimBlanks cs).isEmpty then [] else (splitCommas cs).map trimBlanks

/-- The five forms of R47, for a mnemonic in upper case. -/
def assembleForm (mnemonic : List Char) (operands : List (List Char)) : Except AsmError Instr :=
  if mnemonic = ['C', 'L', 'E', 'A', 'R'] then
    if operands.isEmpty then .ok .clear else .error .operandCount
  else if mnemonic = ['S', 'E', 'T'] then
    if operands.isEmpty then .ok .set else .error .operandCount
  else if mnemonic = ['R', 'E', 'A', 'D'] then
    if operands.isEmpty then .ok .read else .error .operandCount
  else if mnemonic = ['R', 'O', 'L'] then
    match operands with
    | [ta] =>
      match parseOperand ta with
      | .ok a => .ok (.rol a)
      | .error e => .error e
    | _ => .error .operandCount
  else if mnemonic = ['D', 'I', 'V', 'M', 'O', 'D'] then
    match operands with
    | [ta, tb] =>
      match parseOperand ta, parseOperand tb with
      | .ok a, .ok b => .ok (.divmod a b)
      | .error e, _ => .error e
      | .ok _, .error e => .error e
    | _ => .error .operandCount
  else .error .unknownMnemonic

/-- One line of assembly (R47): its command, or none where the line holds only blanks and a comment. DESIGN CHOICE, log entry 15,
where R47 is silent: blanks may stand before the mnemonic (an indented line), after the last operand and before a comment, and the
mnemonic ends at the first blank, so that an operand needs at least one before it. -/
def assembleLine (line : List Char) : Except AsmError (Option Instr) :=
  let text := trimBlanks (stripComment line)
  if text.isEmpty then .ok none
  else
    let mnemonic := (text.takeWhile (!isBlank ·)).map Char.toUpper
    match assembleForm mnemonic (operandTexts (text.dropWhile (!isBlank ·))) with
    | .ok i => .ok (some i)
    | .error e => .error e

/-- The command word of one line (R48): one word for a line with a command (R49). -/
def assembleLineWord (line : List Char) : Except AsmError (Option Word40) :=
  match assembleLine line with
  | .ok none => .ok none
  | .ok (some i) => .ok (some (encode i))
  | .error e => .error e

/-- The command words of a text, line by line; the first error ends it (DESIGN CHOICE, log entry 15). -/
def assembleText : List (List Char) → Except AsmError (List Word40)
  | [] => .ok []
  | line :: lines =>
    match assembleLineWord line with
    | .error e => .error e
    | .ok w =>
      match assembleText lines with
      | .error e => .error e
      | .ok ws => .ok (w.toList ++ ws)

end Sys2Proof.Machine
end

