-- ==== Sys2Proof/Machine/Platform.lean ====
section
/-! DEFINITION. Several instances of the block (60_exceptions.md R91): "instances share no state". A platform is a list of instances,
each with its own host actions and its own outcome; one of them takes a step at a time (log entry 18). -/

namespace Sys2Proof.Machine

/-- One instance of a platform: where its own run stands. `.next s` is an instance in state `s`; a run that was refused, because its
host overlapped commands (R99, U10), or that faulted has no state any more. -/
abbrev Instance := Host.Outcome State Fault Refusal

/-- The instance's next step; a run that has ended takes none (log entry 19). -/
def instanceStep : Instance → Instance
  | .next s => step s
  | .fault r => .fault r
  | .refused r => .refused r

/-- Instance `j` takes one step; the others stand as they were, and what becomes of `j` does not concern them: "Commands to different
instances are independent" (R91). A number that names no instance changes nothing (DESIGN CHOICE, log entry 19). -/
def platformStep (p : List Instance) (j : Nat) : List Instance := p.modify j instanceStep

/-- The instances take steps in the given order. An instance whose run ends does not end the run of another (R91). -/
def platformRun : List Nat → List Instance → List Instance
  | [], p => p
  | j :: js, p => platformRun js (platformStep p j)

end Sys2Proof.Machine
end

