-- ==== Sys2Proof/Machine/Timing.lean ====
section
/-! DEFINITION. What the spec says of time (42_divmod.md R77; 70_reset_and_hazards.md R104, R105). No meaning reads it (log entry
14). -/

namespace Sys2Proof.Machine

/-- The internal steps a command word takes in state `s`, a division's initialisation not counted (R104): none for a word that
raises an exception, 16 iterations of three steps and a closing rotate for a DIVMOD that runs (R77), one for every other command. -/
def internalSteps (w : Word40) (s : State) : Nat :=
  match decodeWord w with
  | .error _ => 0
  | .ok .clear => 1
  | .ok .set => 1
  | .ok .read => 1
  | .ok (.rol _) => 1
  | .ok (.divmod _ b) => if divisionTraps b s then 0 else 16 * 3 + 1

/-- The latency parameter of a command (R105): the same for every operand. -/
def latencyOf : Instr → Nat
  | .clear => Config.latency .clear
  | .set => Config.latency .set
  | .read => Config.latency .read
  | .rol _ => Config.latency .rol
  | .divmod _ _ => Config.latency .divmod

end Sys2Proof.Machine
end

