-- ==== Sys2Proof/Safety.lean ====
section
/-! DEFINITION. The terms claims are stated in: which responses are faults (60_exceptions.md R94), what a run shows
(70_reset_and_hazards.md R106), and the invariant of the divider's phases (42_divmod.md R78). -/

namespace Sys2Proof.Machine

/-! ## Responses and runs -/

/-- The number of a response word (R42), from its fields as numbers. -/
def responseNumber (status : Nat) (cf : Flag) (y1 y0 : Nat) : Nat :=
  status * 2 ^ 36 + b2u cf * 2 ^ 32 + y1 * 2 ^ 16 + y0

/-- The response word with that number. -/
def responseOf (status : Nat) (cf : Flag) (y1 y0 : Nat) : Word40 :=
  BitVec.ofNat 40 (responseNumber status cf y1 y0)

/-- A response with `STATUS` = `OK`: a normal step (R94). -/
def responseOk (w : Word40) : Bool := rspStatus w == 0

/-- "no command reported an error" (R82, R94), of everything answered so far. -/
def noErrors (s : State) : Bool := s.responses.all responseOk

/-- A response no rule rules out (R44): the reserved bits are 0 and the status is 0, 1 or 2. -/
def responsePossible (w : Word40) : Bool := rspReserved w == 0 && decide ((rspStatus w).toNat ≤ 2)

/-- What a run shows (R106): the response words and the final `C`. -/
def observable (s : State) : List Word40 × Flag := (s.responses, s.c)

/-- `k` steps, stopping at the first fault or refusal: the interface's own run of this machine (`runSteps_eq_core_run`). -/
def runSteps : Nat → State → Host.Outcome State Fault Refusal
  | 0, s => .next s
  | k + 1, s =>
    match step s with
    | .next t => runSteps k t
    | .fault r => .fault r
    | .refused r => .refused r

/-- The host issues these command words, each after the previous response (R99), to an instance that answers each in one step. -/
def hostScript (ws : List Word40) : List HostAction := ws.map .command

/-- The same words with 50 steps of waiting after each: enough for an instance that runs a DIVMOD step by step. -/
def patientScript (ws : List Word40) : List HostAction :=
  ws.flatMap fun w => .command w :: List.replicate 50 .wait

/-- Sixteen-bit words, least significant first, as one number (R58). -/
def wordsValue : List Word16 → Nat
  | [] => 0
  | v :: vs => v.toNat + 65536 * wordsValue vs

/-- `rol16` applied `j` times, each time to the pair before (R58). -/
def rolIterate : Nat → Word16 × Flag → Word16 × Flag
  | 0, p => p
  | j + 1, p => rol16 (rolIterate j p).1 (rolIterate j p).2

/-- `P_j` of R73: the top `j` bits of the dividend, as a number. -/
def topBits (n : Word16) (j : Nat) : Nat := n.toNat / 2 ^ (16 - j)

/-! ## The divider's invariant -/

/-- The outstanding command is a DIVMOD that runs (R78's first row). -/
def divisionOutstanding (s : State) (w : Word40) : Prop :=
  decodeWord w = .ok (.divmod (operandA w) (operandB w)) ∧ divisionTraps (operandB w) s = false

/-- What the rows of R78 say of a state in each phase: idle, no command is outstanding; in every other phase a DIVMOD is, and the
divider's registers are those that R61 to R65 have reached. -/
def phaseConsistent (s : State) : Prop :=
  match s.phase, s.outstanding with
  | .idle, none => True
  | .idle, some _ => False
  | .iter _, none => False
  | .close, none => False
  | .done, none => False
  | .iter .a, some w => divisionOutstanding s w ∧ s.div.k < 16 ∧
      s.div = divIterations (operandB w) s.div.k (divInit (operandA w))
  | .iter .b, some w => divisionOutstanding s w ∧ s.div.k < 16 ∧
      s.div = divStepA (divIterations (operandB w) s.div.k (divInit (operandA w)))
  | .iter .c, some w => divisionOutstanding s w ∧ s.div.k < 16 ∧
      s.div = divStepB (divStepA (divIterations (operandB w) s.div.k (divInit (operandA w))))
  | .close, some w => divisionOutstanding s w ∧ s.div = divIterations (operandB w) 16 (divInit (operandA w))
  | .done, some w => divisionOutstanding s w ∧ s.div = divRun (operandA w) (operandB w)

/-- The machine's invariant: the phases are consistent, the step counter is in its range (R22), and every response so far is one
the block can give (R44). -/
def MachineInv (s : State) : Prop :=
  phaseConsistent s ∧ s.div.k ≤ 17 ∧ s.responses.all responsePossible = true

end Sys2Proof.Machine
end

