-- ==== Sys2Proof/Certificates/Slice0/Obligations.lean ====
section
/-! DEFINITION. The statements for the provers, file by file of spec/. Each docstring names the rule it formalises. Words a host
sees are written as numbers by the layouts of 30_encoding.md R36 and R42 (`responseOf` is R42's sum). -/

open Sys2Proof Sys2Proof.Machine

/-! ## 30_encoding.md: command words -/

/-- R36: the three fields lie at 39:32, 31:16 and 15:0, the word is `OP * 2^32 + B * 2^16 + A`, the must-be-zero fields of every
legal word are zero, and the rule's example. -/
def Obligations.CommandWordHasThreeFields : Prop :=
  (∀ w : Word40,
    (opField w).toNat = w.toNat / 2 ^ 32 ∧ (bField w).toNat = w.toNat / 2 ^ 16 % 2 ^ 16 ∧
    (aField w).toNat = w.toNat % 2 ^ 16 ∧
    w.toNat = (opField w).toNat * 2 ^ 32 + (bField w).toNat * 2 ^ 16 + (aField w).toNat ∧
    ∀ i, decodeWord w = .ok i →
      ((opField w).toNat ≠ 5 → bField w = 0) ∧
      ((opField w).toNat ≠ 5 → (opField w).toNat ≠ 4 → aField w = 0)) ∧
  encode (.divmod 95 7) = 0x050007005F#40

/-- R38: a word decodes to a row's command exactly when the row's mask and match take it, with the operands in their fields; a word
no row takes is illegal; no word is taken by two rows. -/
def Obligations.OpcodeMapRowsDecodeDisjointly : Prop :=
  ∀ w : Word40,
    (decodeWord w = .ok .clear ↔ w &&& 0xFFFFFFFFFF#40 = 0x0100000000#40) ∧
    (decodeWord w = .ok .set ↔ w &&& 0xFFFFFFFFFF#40 = 0x0200000000#40) ∧
    (decodeWord w = .ok .read ↔ w &&& 0xFFFFFFFFFF#40 = 0x0300000000#40) ∧
    (decodeWord w = .ok (.rol (aField w)) ↔ w &&& 0xFFFFFF0000#40 = 0x0400000000#40) ∧
    (decodeWord w = .ok (.divmod (aField w) (bField w)) ↔ w &&& 0xFF00000000#40 = 0x0500000000#40) ∧
    ((∃ e, decodeWord w = .error e) ↔
      ∀ row ∈ [(0xFFFFFFFFFF#40, 0x0100000000#40), (0xFFFFFFFFFF#40, 0x0200000000#40),
          (0xFFFFFFFFFF#40, 0x0300000000#40), (0xFFFFFF0000#40, 0x0400000000#40),
          (0xFF00000000#40, 0x0500000000#40)], w &&& row.1 ≠ row.2) ∧
    [(0xFFFFFFFFFF#40, 0x0100000000#40), (0xFFFFFFFFFF#40, 0x0200000000#40),
      (0xFFFFFFFFFF#40, 0x0300000000#40), (0xFFFFFF0000#40, 0x0400000000#40),
      (0xFF00000000#40, 0x0500000000#40)].countP (fun row => w &&& row.1 == row.2) ≤ 1

/-- R40: the decoder is the rule's chain of tests on the word's number, on every 40-bit word. -/
def Obligations.DecodeIsTotalByTheRule : Prop :=
  ∀ w : Word40,
    let op := w.toNat / 2 ^ 32
    let b := w.toNat / 2 ^ 16 % 2 ^ 16
    let a := w.toNat % 2 ^ 16
    (decodeWord w).toOption =
      if op = 1 ∧ a = 0 ∧ b = 0 then some .clear
      else if op = 2 ∧ a = 0 ∧ b = 0 then some .set
      else if op = 3 ∧ a = 0 ∧ b = 0 then some .read
      else if op = 4 ∧ b = 0 then some (.rol (BitVec.ofNat 16 a))
      else if op = 5 then some (.divmod (BitVec.ofNat 16 a) (BitVec.ofNat 16 b))
      else none

/-- R38, R48: each command has exactly one word, and that word decodes to it, for every operand. -/
def Obligations.DecodeEncodeAgree : Prop :=
  ∀ (w : Word40) (i : Instr), decodeWord w = .ok i ↔ w = encode i

/-- Words of 95_test_vectors.md and of R39 decode as written there. -/
def Obligations.VectorWordsDecode : Prop :=
  decodeWord 0x0100000000#40 = .ok .clear ∧ decodeWord 0x0200000000#40 = .ok .set ∧
  decodeWord 0x0300000000#40 = .ok .read ∧ decodeWord 0x0400008000#40 = .ok (.rol 0x8000) ∧
  decodeWord 0x050007005F#40 = .ok (.divmod 95 7) ∧ decodeWord 0x0100000001#40 = .error .nonzeroA ∧
  decodeWord 0x0400010000#40 = .error .nonzeroB ∧ decodeWord 0x06FFFFFFFF#40 = .error (.unassignedOpcode 6)

/-- R48: the five lines and their words (operands in decimal), and no line assembles to an illegal word. -/
def Obligations.AssembledLinesGiveTheirWords : Prop :=
  assembleLineWord "CLEAR".toList = .ok (some 0x0100000000#40) ∧
  assembleLineWord "SET".toList = .ok (some 0x0200000000#40) ∧
  assembleLineWord "READ".toList = .ok (some 0x0300000000#40) ∧
  (∀ a : Nat, a ≤ 65535 →
    assembleLineWord ("ROL ".toList ++ Nat.toDigits 10 a) = .ok (some (BitVec.ofNat 40 (0x04 * 2 ^ 32 + a)))) ∧
  (∀ a b : Nat, a ≤ 65535 → b ≤ 65535 →
    assembleLineWord ("DIVMOD ".toList ++ Nat.toDigits 10 a ++ ", ".toList ++ Nat.toDigits 10 b) =
      .ok (some (BitVec.ofNat 40 (0x05 * 2 ^ 32 + b * 2 ^ 16 + a)))) ∧
  ∀ (line : List Char) (w : Word40), assembleLineWord line = .ok (some w) → ∃ i, decodeWord w = .ok i

/-- R47: an operand is any number from 0 to 65535 in decimal or, after `0x`, in hexadecimal (digits in upper case, as in the
rule's `0x005F`), and a number above that is an assembly error. -/
def Obligations.AssemblerReadsOperandNumbers : Prop :=
  ∀ n : Nat,
    parseOperand (Nat.toDigits 10 n) = (if n ≤ 65535 then .ok (BitVec.ofNat 16 n) else .error .operandRange) ∧
    parseOperand ("0x".toList ++ (Nat.toDigits 16 n).map Char.toUpper) =
      (if n ≤ 65535 then .ok (BitVec.ofNat 16 n) else .error .operandRange)

/-- R47: what follows a `;` does not matter, and the case of a mnemonic does not matter. -/
def Obligations.AssemblerIgnoresCommentsAndCase : Prop :=
  (∀ line rest : List Char, assembleLine (line ++ ';' :: rest) = assembleLine line) ∧
  ∀ m m' tail : List Char,
    m.map Char.toUpper = m'.map Char.toUpper →
    m.all Char.isAlpha = true → m'.all Char.isAlpha = true →
    assembleLine (m ++ ' ' :: tail) = assembleLine (m' ++ ' ' :: tail)

/-! ## 30_encoding.md: response words -/

/-- R42: a response word is the rule's sum, a host reads back the four fields it was built from, and a word a host accepts is the
response word of what it read. -/
def Obligations.ResponseWordLayout : Prop :=
  (∀ (st : Status) (cf : Flag) (y1 y0 : Word16),
    (responseWord st cf y1 y0).toNat = responseNumber (statusCode st).toNat cf y1.toNat y0.toNat ∧
    hostReads (responseWord st cf y1 y0) = some ⟨st, cf, y1, y0⟩) ∧
  ∀ (w : Word40) (h : HostResponse), hostReads w = some h → w = responseWord h.status h.cf h.y1 h.y0

/-- R44: no step adds a response with a reserved bit set or with a status above 2, and a host refuses exactly such words. -/
def Obligations.ResponsesStayPossible : Prop :=
  (∀ s t : State, s.responses.all responsePossible = true → step s = .next t →
    t.responses.all responsePossible = true) ∧
  (∀ w : Word40, responsePossible w = true ↔ (w.toNat / 2 ^ 33 % 2 ^ 3 = 0 ∧ w.toNat / 2 ^ 36 ≤ 2)) ∧
  ∀ w : Word40, hostReads w = none ↔ responsePossible w = false

/-- R42, R94, R96: a step adds at most one response and clears none; a command that an idle block answers in one step adds exactly
one, whose `CF` is the `C` after it; a reset and an aborted command add none. -/
def Obligations.OneResponsePerAnsweredCommand : Prop :=
  (∀ s t : State, step s = .next t → t.responses = s.responses ∨ ∃ r, t.responses = s.responses ++ [r]) ∧
  (∀ (s : State) (w : Word40) (rest : List HostAction), s.phase = .idle → s.inputs = .command w :: rest →
    s.params.divmodForm = .atomic →
    ∃ t r, step s = .next t ∧ t.responses = s.responses ++ [r] ∧ rspCF r = t.c ∧ t.phase = .idle) ∧
  ∀ (s : State) (w : Word40) (rest : List HostAction),
    (s.inputs = .reset :: rest ∨ s.phase = .idle ∧ s.inputs = .aborted w :: rest) →
    ∃ t, step s = .next t ∧ t.responses = s.responses

/-! ## 20_memory.md and 70_reset_and_hazards.md: the step, the host, reset -/

/-- An idle block whose host issues a word that decodes to `i` runs `i` on the state without that host action, unless `i` is a DIVMOD
that the instance runs step by step. -/
def Obligations.StepRunsTheDecodedCommand : Prop :=
  ∀ (s : State) (w : Word40) (rest : List HostAction) (i : Instr),
    s.phase = .idle → s.inputs = .command w :: rest → decodeWord w = .ok i →
    (∀ a b, i = .divmod a b → s.params.divmodForm = .atomic ∨ (b = 0 ∧ s.params.div0Policy = .fault)) →
    step s = exec i { s with inputs := rest }

/-- R32, R99, U10: while a command is in progress the block accepts none; a host that issues one is given no meaning
(as a refusal: log entry 10). -/
def Obligations.BusyBlockRefusesCommands : Prop :=
  ∀ (s : State) (w : Word40) (rest : List HostAction),
    s.phase ≠ .idle → (s.inputs = .command w :: rest ∨ s.inputs = .aborted w :: rest) →
    step s = .refused .hostOverlap

/-- R93: between commands the block is idle and holds its state. (That a step with no command leaves it so is the
model's reading: log entry 16.) -/
def Obligations.IdleBlockHoldsItsState : Prop :=
  ∀ s : State, s.phase = .idle →
    (s.inputs = [] → step s = .next s) ∧
    ∀ rest, s.inputs = .wait :: rest → step s = .next { s with inputs := rest }

/-- R95: the reset event, in every phase of the divider: `C` takes `carry_reset` (any value where it is none), the divider is Idle,
and there is no response. -/
def Obligations.ResetEventEffect : Prop :=
  ∀ (s : State) (rest : List HostAction), s.inputs = .reset :: rest →
    ∃ t, step s = .next t ∧ (∀ v, s.params.carryReset = some v → t.c = v) ∧ t.phase = .idle ∧
      t.outstanding = none ∧ t.responses = s.responses ∧ t.inputs = rest ∧ t.params = s.params

/-- R96: a command that reset catches before its response ends as the reset alone does, without a response, whatever the command; and
a DIVMOD that reset catches in any phase leaves the divider Idle, without a response. R95 and R96 promise `carry_reset` in `C`, the
divider Idle and no response. That the whole next state equals the plain reset's, so also the discarded `Q`, `R`, `F`, `k`, the draw
counter, and `C` where `carry_reset` is none, is the model's choice: `aborted` has the effect of `reset` (log entry 13), and both take
the free values of the same draw (log entries 6 and 7). -/
def Obligations.ResetAbortsTheCommand : Prop :=
  (∀ (s : State) (w : Word40) (rest : List HostAction), s.phase = .idle → s.inputs = .aborted w :: rest →
    step s = step { s with inputs := .reset :: rest } ∧
    ∃ t, step s = .next t ∧ (∀ v, s.params.carryReset = some v → t.c = v) ∧ t.responses = s.responses ∧
      t.phase = .idle ∧ t.outstanding = none) ∧
  ∀ (s : State) (w : Word40) (rest : List HostAction),
    s.phase ≠ .idle → s.outstanding = some w → s.inputs = .reset :: rest →
    ∃ t, step s = .next t ∧ (∀ v, s.params.carryReset = some v → t.c = v) ∧ t.responses = s.responses ∧
      t.phase = .idle ∧ t.outstanding = none

/-- R97: after reset `C` is `carry_reset`, by default 0, the divider is Idle and no command is outstanding. (Of Q, R, F and k, which
the rule leaves unspecified, nothing is stated.) -/
def Obligations.StateAfterReset : Prop :=
  (∀ (p : Config.Params) (v : Flag), p.carryReset = some v → (State.powerOn p).c = v) ∧
  (∀ p : Config.Params, (State.powerOn p).phase = .idle ∧ (State.powerOn p).outstanding = none ∧
    (State.powerOn p).params = p) ∧
  State.reset = State.powerOn Config.defaultParams ∧ State.reset.c = false

/-! ## 40_carry_flag.md -/

/-- R50: CLEAR's word, effect and response in every state, and its illegal words. -/
def Obligations.ClearMeaning : Prop :=
  decodeWord 0x0100000000#40 = .ok .clear ∧
  (∀ s : State,
    exec .clear s = .next { s with c := false, responses := s.responses ++ [responseOf 0 false 0 0] }) ∧
  (∀ w : Word40, opField w = 0x01#8 → (aField w ≠ 0 ∨ bField w ≠ 0) → ∃ e, decodeWord w = .error e) ∧
  responseOf 0 false 0 0 = 0x0000000000#40

/-- R51: SET's word, effect and response in every state, and its illegal words. -/
def Obligations.SetMeaning : Prop :=
  decodeWord 0x0200000000#40 = .ok .set ∧
  (∀ s : State,
    exec .set s = .next { s with c := true, responses := s.responses ++ [responseOf 0 true 0 0] }) ∧
  (∀ w : Word40, opField w = 0x02#8 → (aField w ≠ 0 ∨ bField w ≠ 0) → ∃ e, decodeWord w = .error e) ∧
  responseOf 0 true 0 0 = 0x0100000000#40

/-- R52: READ's word, effect and response in every state, and its illegal words. -/
def Obligations.ReadMeaning : Prop :=
  decodeWord 0x0300000000#40 = .ok .read ∧
  (∀ s : State,
    exec .read s = .next { s with responses := s.responses ++ [responseOf 0 s.c 0 (b2u s.c)] }) ∧
  (∀ w : Word40, opField w = 0x03#8 → (aField w ≠ 0 ∨ bField w ≠ 0) → ∃ e, decodeWord w = .error e) ∧
  responseOf 0 true 0 1 = 0x0100000001#40

/-- R53: the three commands answer OK in every state, neither write the divider's registers nor depend on them, CLEAR and SET do not
depend on `C`, and READ does not write it, so two READs in a row give equal responses. -/
def Obligations.CarryCommandLaws : Prop :=
  (∀ i ∈ [Instr.clear, .set, .read], ∀ s : State, ∃ t r, exec i s = .next t ∧
    t.responses = s.responses ++ [r] ∧ responseOk r = true ∧ t.div = s.div ∧
    ∀ v : DivRegs, exec i { s with div := v } = .next { t with div := v }) ∧
  (∀ (s : State) (x : Flag), exec .clear { s with c := x } = exec .clear s ∧ exec .set { s with c := x } = exec .set s) ∧
  ∀ s : State, ∃ t u r, exec .read s = .next t ∧ exec .read t = .next u ∧
    t.c = s.c ∧ u.responses = s.responses ++ [r, r]

/-! ## 41_rotate_left.md -/

/-- R54: `rol16` by the rule's pseudocode, and its equal `{v[14:0], c}`. -/
def Obligations.RotateFunction : Prop :=
  ∀ (v : Word16) (c : Flag),
    (rol16 v c).2 = v.getLsbD 15 ∧ (rol16 v c).1.toNat = ((v.toNat <<< 1) + b2u c) % 2 ^ 16 ∧
    (rol16 v c).1 = v.extractLsb' 0 15 ++ BitVec.ofBool c

/-- R55: ROL's words, its effect and response in every state and for every value, its illegal words, and its corner cases and
example. -/
def Obligations.RolMeaning : Prop :=
  (∀ a : Word16, decodeWord (BitVec.ofNat 40 (0x04 * 2 ^ 32 + a.toNat)) = .ok (.rol a)) ∧
  (∀ (a : Word16) (s : State),
    exec (.rol a) s = .next { s with
      c := a.getLsbD 15
      responses := s.responses ++ [responseOf 0 (a.getLsbD 15) 0 ((2 * a.toNat + b2u s.c) % 2 ^ 16)] }) ∧
  (∀ w : Word40, opField w = 0x04#8 → bField w ≠ 0 → ∃ e, decodeWord w = .error e) ∧
  rol16 0 false = (0, false) ∧ rol16 0xFFFF true = (0xFFFF, true) ∧ rol16 0x8000 false = (0, true) ∧
  rol16 0x0001 true = (0x0003, false)

/-- R57: the addition of the shift-in bit never carries, so it is an OR, and truncation drops only the old bit 15. -/
def Obligations.RotateAdditionNeverCarries : Prop :=
  ∀ (v : Word16) (c : Flag),
    (v.toNat <<< 1) % 2 = 0 ∧ b2u c ≤ 1 ∧ (v.toNat <<< 1) + b2u c = (v.toNat <<< 1) ||| b2u c ∧
    (v.toNat <<< 1) + b2u c = 2 ^ 16 * b2u (v.getLsbD 15) + (rol16 v c).1.toNat ∧
    (rol16 v c).1.toNat ≤ 0xFFFF

/-- R58: `rol16` rotates the 17-bit value `{c, v}`, so 17 applications give back every pair. -/
def Obligations.SeventeenRotationsRestore : Prop :=
  ∀ (v : Word16) (c : Flag),
    BitVec.ofBool (rol16 v c).2 ++ (rol16 v c).1 = (BitVec.ofBool c ++ v).rotateLeft 1 ∧
    rolIterate 17 (v, c) = (v, c)

/-- R58, R20: a run of ROL commands over the words of a number, least significant first, shifts the number left by one place: the old
`C` enters at the bottom, and the top bit is left in `C`. -/
def Obligations.RolChainShiftsManyWords : Prop :=
  ∀ (s : State) (vs : List Word16), s.phase = .idle →
    ∃ (t : State) (rs : List Word40),
      runSteps vs.length { s with inputs := hostScript (vs.map fun v => encode (.rol v)) } = .next t ∧
      t.responses = s.responses ++ rs ∧ rs.length = vs.length ∧
      wordsValue (rs.map rspY0) + 65536 ^ vs.length * b2u t.c = 2 * wordsValue vs + b2u s.c

/-- R59: the source's vectors. -/
def Obligations.SourceRotateVectors : Prop :=
  rol16 0x8000 false = (0x0000, true) ∧ rol16 0x0001 true = (0x0003, false)

/-! ## 42_divmod.md -/

/-- R71: for a divisor that is not zero, the divider computes quotient and remainder. -/
def Obligations.DividerComputesQuotientAndRemainder : Prop :=
  ∀ n d : Word16, d ≠ 0 →
    (divcore n d).1.toNat = n.toNat / d.toNat ∧ (divcore n d).2.toNat = n.toNat % d.toNat

/-- R72: the remainder is below the divisor, and quotient times divisor plus remainder is the dividend, with no wrap. -/
def Obligations.DivisionBoundAndReconstruction : Prop :=
  ∀ n d : Word16, 1 ≤ d.toNat →
    (divcore n d).2.toNat < d.toNat ∧
    (divcore n d).1.toNat * d.toNat + (divcore n d).2.toNat = n.toNat

/-- R73: after iteration `j` the remainder register is the top `j` bits of the dividend modulo the divisor (those bits themselves
for divisor 0), so step b never carries out, and one subtraction brings the remainder below the divisor. -/
def Obligations.PartialRemainderFitsItsWidth : Prop :=
  ∀ (n d : Word16) (j : Nat), 1 ≤ j → j ≤ 16 →
    let old := divIterations d (j - 1) (divInit n)
    let mid := divStepB (divStepA old)
    let new := divIterations d j (divInit n)
    (1 ≤ d.toNat → new.r.toNat = topBits n j % d.toNat ∧ new.r.toNat ≤ topBits n j) ∧
    (d = 0 → new.r.toNat = topBits n j) ∧ topBits n j < 2 ^ j ∧
    old.r.toNat < 2 ^ (j - 1) ∧ old.r.getLsbD 15 = false ∧ mid.f = false ∧
    mid.r.toNat = 2 * old.r.toNat + b2u (n.getLsbD (16 - j)) ∧
    (1 ≤ d.toNat → mid.r.toNat ≤ 2 * d.toNat - 1 ∧ new.r.toNat < d.toNat ∧
      (d.toNat ≤ mid.r.toNat → new.r.toNat = mid.r.toNat - d.toNat))

/-- R74: the divider's flag ends clear, for every dividend and divisor. -/
def Obligations.DividerFlagEndsClear : Prop :=
  ∀ n d : Word16, (divRun n d).f = false

/-- R75: step a of iteration `j` takes dividend bit `16 - j` out, step b puts it into the remainder, and the outcome of step c ends as
quotient bit `16 - j`. -/
def Obligations.IterationBitMapping : Prop :=
  ∀ (n d : Word16) (j : Nat), 1 ≤ j → j ≤ 16 →
    let old := divIterations d (j - 1) (divInit n)
    (divStepA old).f = n.getLsbD (16 - j) ∧
    (divStepB (divStepA old)).r.getLsbD 0 = n.getLsbD (16 - j) ∧
    (divIterations d j (divInit n)).f = (divRun n d).q.getLsbD (16 - j)

/-- R76: the table's rows, for every dividend and divisor they speak of; the two rows for divisor 0 as commands. -/
def Obligations.DivisionCornerCases : Prop :=
  (∀ d : Word16, d ≠ 0 → divcore 0 d = (0, 0)) ∧
  (∀ n : Word16, divcore n 1 = (n, 0)) ∧
  (∀ n : Word16, n ≠ 0 → divcore n n = (1, 0)) ∧
  (∀ n d : Word16, n < d → divcore n d = (0, n)) ∧
  divcore 65535 1 = (65535, 0) ∧ divcore 65535 65535 = (1, 0) ∧ divcore 0x8000 0x8000 = (1, 0) ∧
  divcore 65535 0x8000 = (1, 0x7FFF) ∧ divcore 65535 0x8001 = (1, 0x7FFE) ∧ divcore 1 65535 = (0, 1) ∧
  (∀ (n : Word16) (s : State), s.params.div0Policy = .fault →
    exec (.divmod n 0) s = .next { s with responses := s.responses ++ [responseOf 1 s.c 0 0] }) ∧
  ∀ (n : Word16) (s : State), s.params.div0Policy = .raw →
    ∃ t r, exec (.divmod n 0) s = .next t ∧ t.responses = s.responses ++ [r] ∧
      rspStatus r = 0 ∧ rspY0 r = 0xFFFF ∧ rspY1 r = n

/-- R60, R71: DIVMOD with a divisor that is not zero, in every state and under every parameter: the response holds quotient and
remainder and the `C` after it, the divider is idle again, its registers are discarded (`v` is any value, R27), and nothing else
changes. (That the discarded registers are free values, and the draw counter, are the model's: log entry 6.) -/
def Obligations.DivmodQuotientAndRemainder : Prop :=
  ∀ (a b : Word16) (s : State), b ≠ 0 →
    ∃ v : DivRegs, v.k ≤ 17 ∧
      exec (.divmod a b) s = .next { s with
        c := if s.params.divmodSharesCarry then false else s.c
        div := v
        phase := .idle
        outstanding := none
        responses := s.responses ++ [responseOf 0 (if s.params.divmodSharesCarry then false else s.c)
          (a.toNat % b.toNat) (a.toNat / b.toNat)]
        draws := s.draws + 1 }

/-- R69: division by zero under the policy `fault`: the error response and no change of state, for every dividend. -/
def Obligations.DivisionByZeroFaultPolicy : Prop :=
  Config.defaultParams.div0Policy = .fault ∧
  ∀ (a : Word16) (s : State), s.params.div0Policy = .fault →
    exec (.divmod a 0) s = .next { s with
      responses := s.responses ++ [BitVec.ofNat 40 (0x1000000000 + b2u s.c * 2 ^ 32)] }

/-- R70: division by zero under the policy `raw`: the algorithm runs unchanged and gives 0xFFFF and the dividend, each of its
comparisons succeeding. (What becomes of `C` is R68's; the discarded registers `v` and the draw counter are the model's: log
entry 6.) -/
def Obligations.DivisionByZeroRawPolicy : Prop :=
  (∀ n : Word16, divcore n 0 = (0xFFFF, n)) ∧
  (∀ (n : Word16) (j : Nat), 1 ≤ j → j ≤ 16 → (divIterations 0 j (divInit n)).f = true) ∧
  ∀ (a : Word16) (s : State), s.params.div0Policy = .raw →
    ∃ v : DivRegs, v.k ≤ 17 ∧
      exec (.divmod a 0) s = .next { s with
        c := if s.params.divmodSharesCarry then false else s.c
        div := v
        phase := .idle
        outstanding := none
        responses := s.responses ++
          [responseOf 0 (if s.params.divmodSharesCarry then false else s.c) a.toNat 0xFFFF]
        draws := s.draws + 1 }

/-- R68: with the carry not shared (the default) DIVMOD neither reads nor writes `C`; shared, a DIVMOD that answers OK leaves it
clear whatever it held; one that ends in error never writes it. -/
def Obligations.DivmodAndTheCarryFlag : Prop :=
  Config.defaultParams.divmodSharesCarry = false ∧
  ∀ (a b : Word16) (s : State), ∃ t r,
    exec (.divmod a b) s = .next t ∧ t.responses = s.responses ++ [r] ∧ rspCF r = t.c ∧
    (s.params.divmodSharesCarry = false → t.c = s.c) ∧
    (s.params.divmodSharesCarry = true → responseOk r = true → t.c = false) ∧
    (responseOk r = false → t.c = s.c) ∧
    ∀ x : Flag, ∃ t' r',
      exec (.divmod a b) { s with c := x } = .next t' ∧ t'.responses = s.responses ++ [r'] ∧
      rspStatus r' = rspStatus r ∧ rspY1 r' = rspY1 r ∧ rspY0 r' = rspY0 r

/-- R23, R98: what DIVMOD answers depends on its operands and the policy alone, on nothing else of the state. -/
def Obligations.DivmodForgetsHistory : Prop :=
  ∀ (a b : Word16) (s s' : State), s.params.div0Policy = s'.params.div0Policy →
    ∃ t t' r r', exec (.divmod a b) s = .next t ∧ exec (.divmod a b) s' = .next t' ∧
      t.responses = s.responses ++ [r] ∧ t'.responses = s'.responses ++ [r'] ∧
      rspStatus r = rspStatus r' ∧ rspY1 r = rspY1 r' ∧ rspY0 r = rspY0 r'

/-- R61 to R65, and R78's table: how a division that the instance runs step by step begins, and each internal step of a busy divider
with what it writes, in every state of its phase. The last step's response and `C` are R60's and R68's, its going idle R78's. (The
value `v` of the discarded registers and the draw counter are the model's: log entry 6.) -/
def Obligations.MicroStepTable : Prop :=
  (∀ (s : State) (rest : List HostAction) (a b : Word16),
    s.phase = .idle → s.params.divmodForm = .stepped → (b ≠ 0 ∨ s.params.div0Policy = .raw) →
    s.inputs = .command (encode (.divmod a b)) :: rest →
    step s = .next { s with
      div := ⟨a, 0, false, 0⟩
      phase := .iter .a
      outstanding := some (encode (.divmod a b))
      inputs := rest }) ∧
  ∀ s : State, s.inputs = [] →
    (s.phase = .iter .a → s.div.k < 16 →
      step s = .next { s with
        div := { s.div with q := (rol16 s.div.q s.div.f).1, f := (rol16 s.div.q s.div.f).2 }
        phase := .iter .b }) ∧
    (s.phase = .iter .b → s.div.k < 16 →
      step s = .next { s with
        div := { s.div with r := (rol16 s.div.r s.div.f).1, f := (rol16 s.div.r s.div.f).2 }
        phase := .iter .c }) ∧
    (∀ w, s.phase = .iter .c → s.div.k < 16 → s.outstanding = some w →
      step s = .next { s with
        div := ⟨s.div.q,
          BitVec.ofNat 16 (if (bField w).toNat ≤ s.div.r.toNat then s.div.r.toNat - (bField w).toNat else s.div.r.toNat),
          decide ((bField w).toNat ≤ s.div.r.toNat), s.div.k + 1⟩
        phase := if s.div.k + 1 < 16 then .iter .a else .close }) ∧
    (s.phase = .close →
      step s = .next { s with
        div := ⟨(rol16 s.div.q s.div.f).1, s.div.r, (rol16 s.div.q s.div.f).2, 17⟩
        phase := .done }) ∧
    (s.phase = .done →
      ∃ v : DivRegs, step s = .next { s with
        c := if s.params.divmodSharesCarry then s.div.f else s.c
        div := v
        phase := .idle
        outstanding := none
        responses := s.responses ++ [responseOf 0 (if s.params.divmodSharesCarry then s.div.f else s.c)
          s.div.r.toNat s.div.q.toNat]
        draws := s.draws + 1 })

/-- R77: a division that runs takes 49 internal steps (the count that `internalSteps` gives), the same for every operand: after `j` of them the divider is in the phase the
table gives, with `C` and the responses as they were; a zero divisor under `fault` runs none. -/
def Obligations.DivisionTakesFortyNineSteps : Prop :=
  (∀ (s : State) (a b : Word16),
    s.phase = .idle → s.params.divmodForm = .stepped → s.inputs = [.command (encode (.divmod a b))] →
    (b ≠ 0 ∨ s.params.div0Policy = .raw) →
    internalSteps (encode (.divmod a b)) s = 49 ∧ ∀ j, j ≤ 49 → ∃ t, runSteps (1 + j) s = .next t ∧ t.c = s.c ∧ t.responses = s.responses ∧
      t.div.k = (if j = 49 then 17 else j / 3) ∧
      t.phase = (if j = 49 then .done else if j = 48 then .close
        else .iter (if j % 3 = 0 then .a else if j % 3 = 1 then .b else .c))) ∧
  ∀ (s : State) (a : Word16), s.phase = .idle → s.params.div0Policy = .fault →
    s.inputs = [.command (encode (.divmod a 0))] →
    internalSteps (encode (.divmod a 0)) s = 0 ∧ ∃ t, step s = .next t ∧ t.phase = .idle ∧ t.div = s.div

/-- R78: a DIVMOD run step by step ends, 50 steps after it is accepted, in the very state that the atomic form gives. R78 promises the
same response and the same `C`; that the discarded `Q`, `R`, `F`, `k` and the draw counter come out equal too is the model's choice
(R27, U5 leave them unspecified): both forms draw one free value with the one counter, log entry 6. -/
def Obligations.SteppedDivisionEqualsAtomic : Prop :=
  ∀ (s : State) (a b : Word16) (rest : List HostAction),
    s.phase = .idle → s.params.divmodForm = .stepped →
    s.inputs = .command (encode (.divmod a b)) :: (List.replicate 50 .wait ++ rest) →
    (b ≠ 0 ∨ s.params.div0Policy = .raw) →
    ∃ t, runSteps 51 s = .next t ∧ exec (.divmod a b) { s with inputs := rest } = .next t

/-- R78, R106: no program can tell the two forms apart: for every sequence of command words, legal or not, both give the same
responses and the same final `C`. -/
def Obligations.FormsAgreeOnEveryRun : Prop :=
  ∀ (s : State) (ws : List Word40), s.phase = .idle →
    ∃ t u,
      runSteps ws.length
        { s with params := { s.params with divmodForm := .atomic }, inputs := hostScript ws } = .next t ∧
      runSteps (51 * ws.length)
        { s with params := { s.params with divmodForm := .stepped }, inputs := patientScript ws } = .next u ∧
      observable t = observable u

/-! ## 60_exceptions.md -/

/-- R81: the illegal words are those the rule lists, and an idle block answers each with status 2. -/
def Obligations.IllegalWordsRaiseIllegalCommand : Prop :=
  ∀ w : Word40,
    let op := w.toNat / 2 ^ 32
    let b := w.toNat / 2 ^ 16 % 2 ^ 16
    let a := w.toNat % 2 ^ 16
    ((∃ e, decodeWord w = .error e) ↔
      (op = 0 ∨ 6 ≤ op) ∨ ((1 ≤ op ∧ op ≤ 3) ∧ (a ≠ 0 ∨ b ≠ 0)) ∨ (op = 4 ∧ b ≠ 0)) ∧
    ∀ (s : State) (rest : List HostAction), s.phase = .idle → s.inputs = .command w :: rest →
      ((∃ e, decodeWord w = .error e) ↔
        ∃ t r, step s = .next t ∧ t.responses = s.responses ++ [r] ∧ rspStatus r = 2)

/-- R82: a command that raises an exception changes no state but the trace; the response is `(code, C, 0, 0)` and is no OK; the block
is idle for the next command. -/
def Obligations.ErrorResponseChangesNothing : Prop :=
  ∀ (s : State) (w : Word40) (rest : List HostAction), s.phase = .idle → s.inputs = .command w :: rest →
    ((∃ e, decodeWord w = .error e) →
      step s = .next { s with inputs := rest, responses := s.responses ++ [responseOf 2 s.c 0 0] }) ∧
    (∀ a, decodeWord w = .ok (.divmod a 0) → s.params.div0Policy = .fault →
      step s = .next { s with inputs := rest, responses := s.responses ++ [responseOf 1 s.c 0 0] }) ∧
    responseOk (responseOf 1 s.c 0 0) = false ∧ responseOk (responseOf 2 s.c 0 0) = false

/-- R83: every exception is precise: whatever the step, a response that reports an error means that nothing else of the block has
changed. -/
def Obligations.ExceptionsArePrecise : Prop :=
  ∀ (s t : State) (r : Word40), step s = .next t → t.responses = s.responses ++ [r] → responseOk r = false →
    t = { s with inputs := s.inputs.tail, responses := s.responses ++ [r] }

/-- R85: a command after an erroring one runs exactly as if the error had not happened: its next state differs by the error's
response in the trace alone. -/
def Obligations.ErrorDoesNotAffectTheNextCommand : Prop :=
  ∀ (s t : State) (w w' : Word40) (rest : List HostAction),
    s.phase = .idle → s.inputs = .command w :: .command w' :: rest →
    ((∃ e, decodeWord w = .error e) ∨ (∃ a, decodeWord w = .ok (.divmod a 0)) ∧ s.params.div0Policy = .fault) →
    step { s with inputs := .command w' :: rest } = .next t →
    ∃ (r : Word40) (new : List Word40), responseOk r = false ∧ t.responses = s.responses ++ new ∧
      runSteps 2 s = .next { t with responses := s.responses ++ r :: new }

/-- R19: only CLEAR, SET, ROL, reset and, where the carry is shared, a DIVMOD that answers OK write `C`, with the values the rules
give; no other step changes it. -/
def Obligations.OnlyTheListedEventsWriteCarry : Prop :=
  ∀ s t : State, step s = .next t → t.c ≠ s.c →
    (∃ w rest, s.inputs = .command w :: rest ∧ s.phase = .idle ∧
      ((decodeWord w = .ok .clear ∧ t.c = false) ∨ (decodeWord w = .ok .set ∧ t.c = true) ∨
        (∃ a, decodeWord w = .ok (.rol a) ∧ t.c = a.getLsbD 15) ∨
        (∃ a b r, decodeWord w = .ok (.divmod a b) ∧ s.params.divmodSharesCarry = true ∧
          t.responses = s.responses ++ [r] ∧ responseOk r = true ∧ t.c = false))) ∨
    ((∃ rest, s.inputs = .reset :: rest) ∨ (∃ w rest, s.inputs = .aborted w :: rest)) ∧
      (∀ v, s.params.carryReset = some v → t.c = v) ∨
    (s.phase = .done ∧ s.params.divmodSharesCarry = true ∧ t.c = s.div.f ∧
      ∃ r, t.responses = s.responses ++ [r] ∧ responseOk r = true)

/-- R8, R99: no step changes a parameter of the instance. -/
def Obligations.ParametersAreFixed : Prop :=
  ∀ s t : State, step s = .next t → t.params = s.params

/-- R91: instances share nothing: whatever steps the instances of a platform take, in whatever order, the run of instance `i` comes to
what it would have come to alone with its own steps, also where the run of another, or its own, has no meaning (R99) or is a fault;
and a run that has ended stays as it is (log entry 19). That the steps of a platform are taken one instance at a time is log entry
18. -/
def Obligations.InstancesAreIndependent : Prop :=
  ∀ (js : List Nat) (p : List Instance),
    (platformRun js p).length = p.length ∧
    ∀ i : Nat,
      (∀ s, p[i]? = some (.next s) → (platformRun js p)[i]? = some (runSteps (js.count i) s)) ∧
      (∀ r, p[i]? = some (.fault r) → (platformRun js p)[i]? = some (.fault r)) ∧
      (∀ r, p[i]? = some (.refused r) → (platformRun js p)[i]? = some (.refused r))

/-- R106, R94: every command of every run is answered, in order and in one step each, and the block is ready again. -/
def Obligations.EveryCommandIsAnswered : Prop :=
  ∀ (s : State) (ws : List Word40), s.phase = .idle → s.params.divmodForm = .atomic →
    ∃ (t : State) (rs : List Word40),
      runSteps ws.length { s with inputs := hostScript ws } = .next t ∧
      t.responses = s.responses ++ rs ∧ rs.length = ws.length ∧ rs.all responsePossible = true ∧
      t.phase = .idle ∧ t.inputs = []

/-- The invariant: in every phase the divider's registers are what R61 to R65 have reached for the outstanding DIVMOD, the counter is
in its range, and every response is one the block can give. Every step keeps it. -/
def Obligations.StepKeepsTheMachineInvariant : Prop :=
  ∀ s t : State, MachineInv s → step s = .next t → MachineInv t

/-- The invariant holds right after reset, whatever the parameters. -/
def Obligations.MachineInvariantAfterReset : Prop :=
  ∀ p : Config.Params, MachineInv (State.powerOn p)

/-- R94: the block never gets stuck: under the invariant a step gives a next state, unless the host issues a command while one is in
progress. -/
def Obligations.BlockNeverGetsStuck : Prop :=
  ∀ s : State, MachineInv s →
    (∃ t, step s = .next t) ∨
    (step s = .refused .hostOverlap ∧ s.phase ≠ .idle ∧
      ∃ w rest, s.inputs = .command w :: rest ∨ s.inputs = .aborted w :: rest)
end

