-- ==== Sys2Proof/Laws/State.lean ====
section
/-! SUPPORT. One lemma per field per state update, so that no proof unfolds a record update. -/

namespace Sys2Proof.Machine

/-! ### writeC -/

@[simp] theorem writeC_params (v : Flag) (s : State) :
    (writeC v s).params = s.params := rfl

@[simp] theorem writeC_c (v : Flag) (s : State) :
    (writeC v s).c = v := rfl

@[simp] theorem writeC_div (v : Flag) (s : State) :
    (writeC v s).div = s.div := rfl

@[simp] theorem writeC_phase (v : Flag) (s : State) :
    (writeC v s).phase = s.phase := rfl

@[simp] theorem writeC_outstanding (v : Flag) (s : State) :
    (writeC v s).outstanding = s.outstanding := rfl

@[simp] theorem writeC_inputs (v : Flag) (s : State) :
    (writeC v s).inputs = s.inputs := rfl

@[simp] theorem writeC_responses (v : Flag) (s : State) :
    (writeC v s).responses = s.responses := rfl

@[simp] theorem writeC_draws (v : Flag) (s : State) :
    (writeC v s).draws = s.draws := rfl

/-! ### respond -/

@[simp] theorem respond_params (st : Status) (cf : Flag) (y1 y0 : Word16) (s : State) :
    (respond st cf y1 y0 s).params = s.params := rfl

@[simp] theorem respond_c (st : Status) (cf : Flag) (y1 y0 : Word16) (s : State) :
    (respond st cf y1 y0 s).c = s.c := rfl

@[simp] theorem respond_div (st : Status) (cf : Flag) (y1 y0 : Word16) (s : State) :
    (respond st cf y1 y0 s).div = s.div := rfl

@[simp] theorem respond_phase (st : Status) (cf : Flag) (y1 y0 : Word16) (s : State) :
    (respond st cf y1 y0 s).phase = s.phase := rfl

@[simp] theorem respond_outstanding (st : Status) (cf : Flag) (y1 y0 : Word16) (s : State) :
    (respond st cf y1 y0 s).outstanding = s.outstanding := rfl

@[simp] theorem respond_inputs (st : Status) (cf : Flag) (y1 y0 : Word16) (s : State) :
    (respond st cf y1 y0 s).inputs = s.inputs := rfl

@[simp] theorem respond_responses (st : Status) (cf : Flag) (y1 y0 : Word16) (s : State) :
    (respond st cf y1 y0 s).responses = s.responses ++ [responseWord st cf y1 y0] := rfl

@[simp] theorem respond_draws (st : Status) (cf : Flag) (y1 y0 : Word16) (s : State) :
    (respond st cf y1 y0 s).draws = s.draws := rfl

/-! ### raiseException -/

@[simp] theorem raiseException_params (e : Exception) (s : State) :
    (raiseException e s).params = s.params := rfl

@[simp] theorem raiseException_c (e : Exception) (s : State) :
    (raiseException e s).c = s.c := rfl

@[simp] theorem raiseException_div (e : Exception) (s : State) :
    (raiseException e s).div = s.div := rfl

@[simp] theorem raiseException_phase (e : Exception) (s : State) :
    (raiseException e s).phase = s.phase := rfl

@[simp] theorem raiseException_outstanding (e : Exception) (s : State) :
    (raiseException e s).outstanding = s.outstanding := rfl

@[simp] theorem raiseException_inputs (e : Exception) (s : State) :
    (raiseException e s).inputs = s.inputs := rfl

@[simp] theorem raiseException_responses (e : Exception) (s : State) :
    (raiseException e s).responses = s.responses ++ [responseWord (exceptionStatus e) s.c 0 0] := rfl

@[simp] theorem raiseException_draws (e : Exception) (s : State) :
    (raiseException e s).draws = s.draws := rfl

/-! ### discardDivider -/

@[simp] theorem discardDivider_params (s : State) :
    (discardDivider s).params = s.params := rfl

@[simp] theorem discardDivider_c (s : State) :
    (discardDivider s).c = s.c := rfl

@[simp] theorem discardDivider_div (s : State) :
    (discardDivider s).div = idleDivRegs s.draws := rfl

@[simp] theorem discardDivider_phase (s : State) :
    (discardDivider s).phase = .idle := rfl

@[simp] theorem discardDivider_outstanding (s : State) :
    (discardDivider s).outstanding = none := rfl

@[simp] theorem discardDivider_inputs (s : State) :
    (discardDivider s).inputs = s.inputs := rfl

@[simp] theorem discardDivider_responses (s : State) :
    (discardDivider s).responses = s.responses := rfl

@[simp] theorem discardDivider_draws (s : State) :
    (discardDivider s).draws = s.draws + 1 := rfl

/-! ### resetEvent -/

@[simp] theorem resetEvent_params (s : State) :
    (resetEvent s).params = s.params := rfl

@[simp] theorem resetEvent_c (s : State) :
    (resetEvent s).c = carryAfterReset s.params s.draws := rfl

@[simp] theorem resetEvent_div (s : State) :
    (resetEvent s).div = idleDivRegs s.draws := rfl

@[simp] theorem resetEvent_phase (s : State) :
    (resetEvent s).phase = .idle := rfl

@[simp] theorem resetEvent_outstanding (s : State) :
    (resetEvent s).outstanding = none := rfl

@[simp] theorem resetEvent_inputs (s : State) :
    (resetEvent s).inputs = s.inputs := rfl

@[simp] theorem resetEvent_responses (s : State) :
    (resetEvent s).responses = s.responses := rfl

@[simp] theorem resetEvent_draws (s : State) :
    (resetEvent s).draws = s.draws + 1 := rfl

/-! ### beginDivision -/

@[simp] theorem beginDivision_params (w : Word40) (s : State) :
    (beginDivision w s).params = s.params := rfl

@[simp] theorem beginDivision_c (w : Word40) (s : State) :
    (beginDivision w s).c = s.c := rfl

@[simp] theorem beginDivision_div (w : Word40) (s : State) :
    (beginDivision w s).div = divInit (operandA w) := rfl

@[simp] theorem beginDivision_phase (w : Word40) (s : State) :
    (beginDivision w s).phase = .iter .a := rfl

@[simp] theorem beginDivision_outstanding (w : Word40) (s : State) :
    (beginDivision w s).outstanding = some w := rfl

@[simp] theorem beginDivision_inputs (w : Word40) (s : State) :
    (beginDivision w s).inputs = s.inputs := rfl

@[simp] theorem beginDivision_responses (w : Word40) (s : State) :
    (beginDivision w s).responses = s.responses := rfl

@[simp] theorem beginDivision_draws (w : Word40) (s : State) :
    (beginDivision w s).draws = s.draws := rfl

/-! ### dropInput -/

@[simp] theorem dropInput_params (s : State) :
    (dropInput s).params = s.params := rfl

@[simp] theorem dropInput_c (s : State) :
    (dropInput s).c = s.c := rfl

@[simp] theorem dropInput_div (s : State) :
    (dropInput s).div = s.div := rfl

@[simp] theorem dropInput_phase (s : State) :
    (dropInput s).phase = s.phase := rfl

@[simp] theorem dropInput_outstanding (s : State) :
    (dropInput s).outstanding = s.outstanding := rfl

@[simp] theorem dropInput_inputs (s : State) :
    (dropInput s).inputs = s.inputs.tail := rfl

@[simp] theorem dropInput_responses (s : State) :
    (dropInput s).responses = s.responses := rfl

@[simp] theorem dropInput_draws (s : State) :
    (dropInput s).draws = s.draws := rfl

/-! ### finishDivision -/

@[simp] theorem finishDivision_params (v : DivRegs) (s : State) :
    (finishDivision v s).params = s.params := by
  unfold finishDivision
  split <;> simp_all

@[simp] theorem finishDivision_c (v : DivRegs) (s : State) :
    (finishDivision v s).c = if s.params.divmodSharesCarry then v.f else s.c := by
  unfold finishDivision
  split <;> simp_all

@[simp] theorem finishDivision_div (v : DivRegs) (s : State) :
    (finishDivision v s).div = idleDivRegs s.draws := by
  unfold finishDivision
  split <;> simp_all

@[simp] theorem finishDivision_phase (v : DivRegs) (s : State) :
    (finishDivision v s).phase = .idle := by
  unfold finishDivision
  split <;> simp_all

@[simp] theorem finishDivision_outstanding (v : DivRegs) (s : State) :
    (finishDivision v s).outstanding = none := by
  unfold finishDivision
  split <;> simp_all

@[simp] theorem finishDivision_inputs (v : DivRegs) (s : State) :
    (finishDivision v s).inputs = s.inputs := by
  unfold finishDivision
  split <;> simp_all

@[simp] theorem finishDivision_responses (v : DivRegs) (s : State) :
    (finishDivision v s).responses = s.responses ++
      [responseWord .ok (if s.params.divmodSharesCarry then v.f else s.c) v.r v.q] := by
  unfold finishDivision
  split <;> simp_all

@[simp] theorem finishDivision_draws (v : DivRegs) (s : State) :
    (finishDivision v s).draws = s.draws + 1 := by
  unfold finishDivision
  split <;> simp_all

/-! ### State.powerOn -/

@[simp] theorem powerOn_params (p : Config.Params) : (State.powerOn p).params = p := rfl

@[simp] theorem powerOn_c (p : Config.Params) : (State.powerOn p).c = carryAfterReset p 0 := rfl

@[simp] theorem powerOn_phase (p : Config.Params) : (State.powerOn p).phase = .idle := rfl

@[simp] theorem powerOn_outstanding (p : Config.Params) : (State.powerOn p).outstanding = none := rfl

@[simp] theorem powerOn_inputs (p : Config.Params) : (State.powerOn p).inputs = [] := rfl

@[simp] theorem powerOn_responses (p : Config.Params) : (State.powerOn p).responses = [] := rfl

end Sys2Proof.Machine
end

