-- ==== Sys2Proof/Laws/Ops.lean ====
section
/-! SUPPORT. One lemma per shared operation, saying everything it can do: the operands and flags as numbers, the fields of a word,
the division's shape, and what a step can be. -/

namespace Sys2Proof.Machine

/-! ## Operands, flags, fields -/

@[simp] theorem b2u_true : b2u true = 1 := rfl

@[simp] theorem b2u_false : b2u false = 0 := rfl

theorem b2u_le_one (c : Flag) : b2u c ≤ 1 := by cases c <;> simp

@[simp] theorem trunc16_toNat (x : Nat) : (trunc16 x).toNat = x % 65536 := by simp [trunc16]

theorem zext16_toNat (c : Flag) : (zext16 c).toNat = b2u c := by cases c <;> rfl

/-- The outgoing carry as a comparison: bit 15 is set exactly from 0x8000 on. -/
theorem carryOut_eq_decide (v : Word16) : carryOut v = decide (32768 ≤ v.toNat) := by
  have h := v.isLt
  simp only [carryOut, BitVec.getLsbD, Nat.testBit_eq_decide_div_mod_eq]
  congr 1
  apply propext
  omega

theorem b2u_carryOut (v : Word16) : b2u (carryOut v) = v.toNat / 32768 := by
  have h := v.isLt
  rw [carryOut_eq_decide]
  by_cases hv : 32768 ≤ v.toNat <;> simp [hv, b2u] <;> omega

theorem noBorrow_eq_true {r d : Word16} : noBorrow r d = true ↔ d.toNat ≤ r.toNat := by simp [noBorrow]

/-- Concatenation as arithmetic (R10: `{a, b}`, `a` the high part). -/
theorem append_toNat {n m : Nat} (x : BitVec n) (y : BitVec m) : (x ++ y).toNat = x.toNat * 2 ^ m + y.toNat := by
  rw [BitVec.toNat_append, Nat.shiftLeft_eq, Nat.mul_comm, Nat.two_pow_add_eq_or_of_lt y.isLt]

theorem ofBool_toNat (c : Flag) : (BitVec.ofBool c).toNat = b2u c := by cases c <;> rfl

theorem joinCommand_toNat (f : CommandFields) :
    (joinCommand f).toNat = f.op.toNat * 2 ^ 32 + f.b.toNat * 2 ^ 16 + f.a.toNat := by
  simp only [joinCommand, append_toNat]
  omega

theorem opField_toNat (w : Word40) : (opField w).toNat = w.toNat / 2 ^ 32 := by
  have h := w.isLt
  simp only [opField, BitVec.extractLsb'_toNat, Nat.shiftRight_eq_div_pow]
  omega

theorem bField_toNat (w : Word40) : (bField w).toNat = w.toNat / 2 ^ 16 % 65536 := by
  simp [bField, BitVec.extractLsb'_toNat, Nat.shiftRight_eq_div_pow]

theorem aField_toNat (w : Word40) : (aField w).toNat = w.toNat % 65536 := by
  simp [aField, BitVec.extractLsb'_toNat]

/-! ## The divider -/

@[simp] theorem divStepA_r (v : DivRegs) : (divStepA v).r = v.r := rfl

@[simp] theorem divStepA_k (v : DivRegs) : (divStepA v).k = v.k := rfl

@[simp] theorem divStepB_q (v : DivRegs) : (divStepB v).q = v.q := rfl

@[simp] theorem divStepB_k (v : DivRegs) : (divStepB v).k = v.k := rfl

@[simp] theorem divStepC_q (d : Word16) (v : DivRegs) : (divStepC d v).q = v.q := by
  unfold divStepC
  split <;> rfl

@[simp] theorem divStepC_k (d : Word16) (v : DivRegs) : (divStepC d v).k = v.k + 1 := by
  unfold divStepC
  split <;> rfl

theorem divStepC_f (d : Word16) (v : DivRegs) : (divStepC d v).f = noBorrow v.r d := by
  unfold divStepC
  split <;> simp_all

theorem divStepC_r (d : Word16) (v : DivRegs) : (divStepC d v).r = if noBorrow v.r d then v.r - d else v.r := by
  unfold divStepC
  split <;> rfl

@[simp] theorem divIteration_k (d : Word16) (v : DivRegs) : (divIteration d v).k = v.k + 1 := by simp [divIteration]

@[simp] theorem divIterations_k (d : Word16) (j : Nat) (v : DivRegs) : (divIterations d j v).k = v.k + j := by
  induction j with
  | zero => rfl
  | succ j ih => simp [divIterations, ih, Nat.add_assoc]

@[simp] theorem divInit_k (n : Word16) : (divInit n).k = 0 := rfl

@[simp] theorem divRun_k (n d : Word16) : (divRun n d).k = 17 := rfl

/-- While the divider is idle its counter is a free value, but in its range (R22). -/
theorem idleDivRegs_k_le (n : Nat) : (idleDivRegs n).k ≤ 17 := Nat.lt_succ_iff.mp (Config.freeK n).isLt

/-! ## Accepting a command -/

theorem acceptCommand_idle {s : State} (w : Word40) (h : s.phase = .idle) :
    acceptCommand w s =
      match decodeWord w with
      | .error _ => .next (raiseException .illegalCommand s)
      | .ok i => if runsStepped i s then .next (beginDivision w s) else exec i s := by
  cases hd : decodeWord w <;> simp only [acceptCommand, h, hd]

theorem acceptCommand_busy {s : State} (w : Word40) (h : s.phase ≠ .idle) :
    acceptCommand w s = .refused .hostOverlap := by
  unfold acceptCommand
  split <;> simp_all

theorem acceptAborted_busy {s : State} (h : s.phase ≠ .idle) : acceptAborted s = .refused .hostOverlap := by
  unfold acceptAborted
  split <;> simp_all

/-- Only a DIVMOD that raises no exception is run step by step. -/
theorem runsStepped_eq_true {i : Instr} {s : State} (h : runsStepped i s = true) :
    ∃ a b, i = .divmod a b ∧ s.params.divmodForm = .stepped ∧ divisionTraps b s = false := by
  cases i <;> simp_all [runsStepped]

theorem divisionTraps_eq_true {b : Word16} {s : State} :
    divisionTraps b s = true ↔ b = 0 ∧ s.params.div0Policy = .fault := by
  simp [divisionTraps]

/-! ## What a step can be -/

/-- Everything `exec` can answer: always a next state, of one of these forms. -/
theorem exec_cases (i : Instr) (s : State) :
    (i = .clear ∧ exec i s = .next (respond .ok false 0 0 (writeC false s))) ∨
    (i = .set ∧ exec i s = .next (respond .ok true 0 0 (writeC true s))) ∨
    (i = .read ∧ exec i s = .next (respond .ok s.c 0 (zext16 s.c) s)) ∨
    (∃ a, i = .rol a ∧
      exec i s = .next (respond .ok (carryOut a) 0 (rol16 a s.c).1 (writeC (carryOut a) s))) ∨
    (∃ a b, i = .divmod a b ∧ divisionTraps b s = true ∧ exec i s = .next (raiseException .divisionByZero s)) ∨
    (∃ a b, i = .divmod a b ∧ divisionTraps b s = false ∧
      exec i s = .next (finishDivision (divRun a b) s)) := by
  cases i with
  | clear => exact .inl ⟨rfl, rfl⟩
  | set => exact .inr (.inl ⟨rfl, rfl⟩)
  | read => exact .inr (.inr (.inl ⟨rfl, rfl⟩))
  | rol a => exact .inr (.inr (.inr (.inl ⟨a, rfl, rfl⟩)))
  | divmod a b =>
    cases h : divisionTraps b s with
    | true => exact .inr (.inr (.inr (.inr (.inl ⟨a, b, rfl, h, by simp [exec, execDivmod, h]⟩))))
    | false => exact .inr (.inr (.inr (.inr (.inr ⟨a, b, rfl, h, by simp [exec, execDivmod, h]⟩))))

/-- Everything an internal step can answer with a next state. -/
theorem dividerTick_cases {s t : State} (h : dividerTick s = .next t) :
    (s.phase = .idle ∧ t = s) ∨
    (s.phase = .iter .a ∧ s.div.k < 16 ∧ t = { s with div := divStepA s.div, phase := .iter .b }) ∨
    (s.phase = .iter .b ∧ s.div.k < 16 ∧ t = { s with div := divStepB s.div, phase := .iter .c }) ∨
    (∃ w, s.phase = .iter .c ∧ s.div.k < 16 ∧ s.outstanding = some w ∧
      t = { s with
        div := divStepC (operandB w) s.div
        phase := if s.div.k + 1 < 16 then .iter .a else .close }) ∨
    (s.phase = .close ∧ t = { s with div := divClose s.div, phase := .done }) ∨
    (s.phase = .done ∧ t = finishDivision s.div s) := by
  unfold dividerTick at h
  split at h <;> rename_i hp
  · exact .inl ⟨hp, by simpa using h.symm⟩
  · split at h
    · exact .inr (.inl ⟨hp, ‹_›, by simpa using h.symm⟩)
    · simp at h
  · split at h
    · exact .inr (.inr (.inl ⟨hp, ‹_›, by simpa using h.symm⟩))
    · simp at h
  · split at h
    · split at h
      · simp at h
      · exact .inr (.inr (.inr (.inl ⟨_, hp, ‹_›, ‹_›, by simpa using h.symm⟩)))
    · simp at h
  · exact .inr (.inr (.inr (.inr (.inl ⟨hp, by simpa using h.symm⟩))))
  · exact .inr (.inr (.inr (.inr (.inr ⟨hp, by simpa using h.symm⟩))))

/-- Everything a step can answer with a next state: an internal step, a reset, or an accepted command, which is illegal, begun step
by step, or run whole. -/
theorem step_cases {s t : State} (h : step s = .next t) :
    ((s.inputs = [] ∧ dividerTick s = .next t) ∨
      (∃ rest, s.inputs = .wait :: rest ∧ dividerTick (dropInput s) = .next t)) ∨
    (∃ rest, s.inputs = .reset :: rest ∧ t = resetEvent (dropInput s)) ∨
    (∃ w rest, s.inputs = .aborted w :: rest ∧ s.phase = .idle ∧ t = resetEvent (dropInput s)) ∨
    (∃ w rest, s.inputs = .command w :: rest ∧ s.phase = .idle ∧
      ((∃ e, decodeWord w = .error e ∧ t = raiseException .illegalCommand (dropInput s)) ∨
        (∃ a b, decodeWord w = .ok (.divmod a b) ∧ s.params.divmodForm = .stepped ∧
          divisionTraps b s = false ∧ t = beginDivision w (dropInput s)) ∨
        (∃ i, decodeWord w = .ok i ∧ runsStepped i (dropInput s) = false ∧ exec i (dropInput s) = .next t))) := by
  unfold step at h
  split at h <;> rename_i hin
  · exact .inl (.inl ⟨hin, h⟩)
  · exact .inl (.inr ⟨_, hin, h⟩)
  · refine .inr (.inr (.inr ⟨_, _, hin, ?_⟩))
    by_cases hp : s.phase = .idle
    · refine ⟨hp, ?_⟩
      rw [acceptCommand_idle _ (by simpa using hp)] at h
      split at h <;> rename_i hd
      · exact .inl ⟨_, hd, by simpa using h.symm⟩
      · split at h <;> rename_i hr
        · obtain ⟨a, b, rfl, hf, ht⟩ := runsStepped_eq_true hr
          exact .inr (.inl ⟨a, b, hd, by simpa using hf, ht, by simpa using h.symm⟩)
        · exact .inr (.inr ⟨_, hd, by simpa using hr, h⟩)
    · rw [acceptCommand_busy _ (by simpa using hp)] at h
      simp at h
  · refine .inr (.inr (.inl ⟨_, _, hin, ?_⟩))
    by_cases hp : s.phase = .idle
    · exact ⟨hp, by simpa [acceptAborted, hp] using h.symm⟩
    · rw [acceptAborted_busy (by simpa using hp)] at h
      simp at h
  · exact .inr (.inl ⟨_, hin, by simpa using h.symm⟩)

end Sys2Proof.Machine
end

