-- ==== Sys2Proof/Laws/PerInstr.lean ====
section
/-! SUPPORT. What holds of every instruction as syntax, one lemma per constructor. -/

namespace Sys2Proof.Laws.LegalEncoding

/-- An instruction's fields pass the checks of WellFormed.lean: an assigned opcode, every must-be-zero field zero. -/
def Statement (i : Instr) : Prop := commandLegal (encodeFields i) = true

theorem clear : Statement .clear := rfl

theorem set : Statement .set := rfl

theorem read : Statement .read := rfl

theorem rol (a : Word16) : Statement (.rol a) := by
  simp [Statement, encodeFields, commandLegal, opcodeAssigned, bFieldLegal, aFieldLegal]

theorem divmod (a b : Word16) : Statement (.divmod a b) := by
  simp [Statement, encodeFields, commandLegal, opcodeAssigned, bFieldLegal, aFieldLegal]

end Sys2Proof.Laws.LegalEncoding
end

