-- ==== Sys2Proof/Laws/Platform.lean ====
section
/-! SUPPORT. Several instances: what a step of a platform does to each of them. -/

namespace Sys2Proof.Machine

@[simp] theorem instanceStep_next (s : State) : instanceStep (.next s) = step s := rfl
@[simp] theorem instanceStep_fault (r : Fault) : instanceStep (.fault r) = .fault r := rfl
@[simp] theorem instanceStep_refused (r : Refusal) : instanceStep (.refused r) = .refused r := rfl

@[simp] theorem platformRun_nil (p : List Instance) : platformRun [] p = p := rfl
@[simp] theorem platformRun_cons (j : Nat) (js : List Nat) (p : List Instance) :
    platformRun (j :: js) p = platformRun js (platformStep p j) := rfl

/-- A step makes no instance and loses none. -/
@[simp] theorem platformStep_length (p : List Instance) (j : Nat) : (platformStep p j).length = p.length := by
  simp [platformStep]

/-- Everything a step of instance `j` does: `j` takes its own step, whatever that gives, and every other instance stands. -/
theorem platformStep_getElem? (p : List Instance) (j i : Nat) :
    (platformStep p j)[i]? = if j = i then p[i]?.map instanceStep else p[i]? := by
  by_cases h : j = i <;> simp [platformStep, h]

end Sys2Proof.Machine
end

