-- ==== Sys2Proof/Laws/Response.lean ====
section
/-! SUPPORT. The response word: each field as arithmetic on the word's number, and read back from the word it was put into. -/

namespace Sys2Proof.Machine

theorem b2u_injective {a b : Flag} (h : b2u a = b2u b) : a = b := by cases a <;> cases b <;> simp_all

theorem rspStatus_toNat (w : Word40) : (rspStatus w).toNat = w.toNat / 2 ^ 36 := by
  have h := w.isLt
  simp only [rspStatus, BitVec.extractLsb'_toNat, Nat.shiftRight_eq_div_pow]
  omega

theorem rspReserved_toNat (w : Word40) : (rspReserved w).toNat = w.toNat / 2 ^ 33 % 2 ^ 3 := by
  simp only [rspReserved, BitVec.extractLsb'_toNat, Nat.shiftRight_eq_div_pow]

theorem b2u_rspCF (w : Word40) : b2u (rspCF w) = w.toNat / 2 ^ 32 % 2 := by
  simp only [rspCF, BitVec.getLsbD, Nat.testBit_eq_decide_div_mod_eq, b2u, decide_eq_true_eq]
  split <;> omega

theorem rspY1_toNat (w : Word40) : (rspY1 w).toNat = w.toNat / 2 ^ 16 % 2 ^ 16 := by
  simp only [rspY1, BitVec.extractLsb'_toNat, Nat.shiftRight_eq_div_pow]

theorem rspY0_toNat (w : Word40) : (rspY0 w).toNat = w.toNat % 2 ^ 16 := by
  simp [rspY0, BitVec.extractLsb'_toNat]

/-- The word's number is the sum of R42. -/
theorem responseWord_toNat (st : Status) (cf : Flag) (y1 y0 : Word16) :
    (responseWord st cf y1 y0).toNat = responseNumber (statusCode st).toNat cf y1.toNat y0.toNat := by
  simp only [responseWord, append_toNat, ofBool_toNat, responseNumber, BitVec.toNat_ofNat]
  omega

/-- The same word, made from its number. -/
theorem responseWord_eq_responseOf (st : Status) (cf : Flag) (y1 y0 : Word16) :
    responseWord st cf y1 y0 = responseOf (statusCode st).toNat cf y1.toNat y0.toNat := by
  have h := (responseWord st cf y1 y0).isLt
  apply BitVec.eq_of_toNat_eq
  rw [responseWord_toNat] at h ⊢
  rw [responseOf, BitVec.toNat_ofNat, Nat.mod_eq_of_lt h]

section Fields

variable (st : Status) (cf : Flag) (y1 y0 : Word16)

@[simp] theorem rspStatus_responseWord : rspStatus (responseWord st cf y1 y0) = statusCode st := by
  have h1 := y1.isLt
  have h0 := y0.isLt
  have hc := b2u_le_one cf
  apply BitVec.eq_of_toNat_eq
  rw [rspStatus_toNat, responseWord_toNat, responseNumber]
  omega

@[simp] theorem rspReserved_responseWord : rspReserved (responseWord st cf y1 y0) = 0 := by
  have h1 := y1.isLt
  have h0 := y0.isLt
  have hc := b2u_le_one cf
  apply BitVec.eq_of_toNat_eq
  rw [rspReserved_toNat, responseWord_toNat, responseNumber]
  simp only [BitVec.ofNat_eq_ofNat, BitVec.toNat_ofNat]
  omega

@[simp] theorem rspCF_responseWord : rspCF (responseWord st cf y1 y0) = cf := by
  have h1 := y1.isLt
  have h0 := y0.isLt
  have hc := b2u_le_one cf
  apply b2u_injective
  rw [b2u_rspCF, responseWord_toNat, responseNumber]
  omega

@[simp] theorem rspY1_responseWord : rspY1 (responseWord st cf y1 y0) = y1 := by
  have h1 := y1.isLt
  have h0 := y0.isLt
  have hc := b2u_le_one cf
  apply BitVec.eq_of_toNat_eq
  rw [rspY1_toNat, responseWord_toNat, responseNumber]
  omega

@[simp] theorem rspY0_responseWord : rspY0 (responseWord st cf y1 y0) = y0 := by
  have h1 := y1.isLt
  have h0 := y0.isLt
  have hc := b2u_le_one cf
  apply BitVec.eq_of_toNat_eq
  rw [rspY0_toNat, responseWord_toNat, responseNumber]
  omega

@[simp] theorem responseOk_responseWord : responseOk (responseWord st cf y1 y0) = (st == .ok) := by
  rw [responseOk, rspStatus_responseWord]
  cases st <;> rfl

@[simp] theorem responsePossible_responseWord : responsePossible (responseWord st cf y1 y0) = true := by
  rw [responsePossible, rspStatus_responseWord, rspReserved_responseWord]
  cases st <;> rfl

end Fields

end Sys2Proof.Machine
end

