-- ==== Sys2Proof/Laws/Run.lean ====
section
/-! SUPPORT. Runs of many steps: how they unfold and compose, and that they are the interface's own runs. -/

namespace Sys2Proof.Machine

@[simp] theorem runSteps_zero (s : State) : runSteps 0 s = .next s := rfl

theorem runSteps_succ_of_next {s t : State} (k : Nat) (h : step s = .next t) : runSteps (k + 1) s = runSteps k t := by
  simp only [runSteps, h]

/-- A run of more than one step begins with a next state. -/
theorem runSteps_succ_cases {k : Nat} {s u : State} (h : runSteps (k + 1) s = .next u) :
    ∃ t, step s = .next t ∧ runSteps k t = .next u := by
  simp only [runSteps] at h
  split at h
  · exact ⟨_, ‹_›, h⟩
  · cases h
  · cases h

/-- Runs compose. -/
theorem runSteps_add {j : Nat} (k : Nat) {s t : State} (h : runSteps j s = .next t) :
    runSteps (j + k) s = runSteps k t := by
  induction j generalizing s with
  | zero => cases h; rw [Nat.zero_add]
  | succ j ih =>
    obtain ⟨u, hu, hr⟩ := runSteps_succ_cases h
    rw [Nat.add_right_comm, runSteps_succ_of_next _ hu, ih hr]

theorem runSteps_eq_core_run (k : Nat) (s : State) : runSteps k s = Host.Core.run core k s := by
  induction k generalizing s with
  | zero => rfl
  | succ k ih =>
    cases hs : step s with
    | next t =>
      have hc : core.step s = .next t := hs
      simp only [runSteps, Host.Core.run, hs, hc, ih]
      rfl
    | fault r =>
      have hc : core.step s = .fault r := hs
      simp only [runSteps, Host.Core.run, hs, hc]
      rfl
    | refused r =>
      have hc : core.step s = .refused r := hs
      simp only [runSteps, Host.Core.run, hs, hc]
      rfl

/-- A host that waits lets the block take its internal step. -/
theorem step_wait {s : State} {rest : List HostAction} (h : s.inputs = .wait :: rest) :
    step s = dividerTick (dropInput s) := by
  simp only [step, h]

theorem step_no_input {s : State} (h : s.inputs = []) : step s = dividerTick s := by
  simp only [step, h]

end Sys2Proof.Machine
end

