-- ==== Sys2Proof/Tests/Slice0.lean ====
section
/-! SUPPORT. Tests: the checks of WellFormed.lean refuse, the spec's words decode, one step gives the spec's vectors
(95_test_vectors.md), and every statement's hypotheses are met by something. -/

namespace Sys2Proof.Tests

open Sys2Proof Sys2Proof.Machine

/-! ## Helpers -/

/-- The state of a next-state outcome. -/
def nextOf (o : Host.Outcome State Fault Refusal) : Option State :=
  match o with
  | .next t => some t
  | .fault _ => none
  | .refused _ => none

/-- The outcome is the refusal of an overlapping command. -/
def overlaps (o : Host.Outcome State Fault Refusal) : Bool :=
  match o with
  | .next _ => false
  | .fault _ => false
  | .refused r => r == .hostOverlap

/-- The reset state whose host is going to do `l`, with `C` = `c`. -/
def ready (c : Flag) (l : List HostAction) : State := { State.reset with c := c, inputs := l }

/-- The same with parameters of its own. -/
def readyWith (policy : Config.Div0Policy) (shares : Bool) (form : Config.DivmodForm) (c : Flag)
    (l : List HostAction) : State :=
  { ready c l with params := ⟨policy, shares, some true, form⟩ }

/-- What one step answers: the responses and `C`. -/
def answers (s : State) : Option (List Word40 × Flag) := (nextOf (step s)).map observable

/-- An instance in the middle of `DIVMOD 95, 7`, in the given phase with the given registers. -/
def busy (ph : Phase) (v : DivRegs) (l : List HostAction) : State :=
  { readyWith .fault false .stepped false l with phase := ph, div := v, outstanding := some 0x050007005F#40 }

/-! ## Ill-formed terms are refused (R39, R41, R47) -/

theorem test_wf_opcode_zero : opcodeAssigned ⟨0x00#8, 0, 0⟩ = false := by decide
theorem test_wf_opcode_six : opcodeAssigned ⟨0x06#8, 0, 0⟩ = false := by decide
theorem test_wf_b_field : bFieldLegal ⟨0x04#8, 1, 0⟩ = false := by decide
theorem test_wf_a_field : aFieldLegal ⟨0x01#8, 0, 1⟩ = false := by decide
theorem test_wf_command : commandLegal ⟨0x02#8, 1, 0⟩ = false := by decide
theorem test_wf_operand : operandInRange 65536 = false := by decide

/-! ## Decoding: words written out from R36 and R38, field by field -/

/-- `OP` = 0000_0001, `B` and `A` zero. -/
theorem test_decode_clear : decodeWord 0b00000001_0000000000000000_0000000000000000#40 = .ok .clear := by decide
/-- `OP` = 0000_0010. -/
theorem test_decode_set : decodeWord 0b00000010_0000000000000000_0000000000000000#40 = .ok .set := by decide
/-- `OP` = 0000_0011. -/
theorem test_decode_read : decodeWord 0b00000011_0000000000000000_0000000000000000#40 = .ok .read := by decide
/-- `OP` = 0000_0100, `A` = 0xC000 (V-R-14). -/
theorem test_decode_rol :
    decodeWord 0b00000100_0000000000000000_1100000000000000#40 = .ok (.rol 0xC000) := by decide
/-- `OP` = 0000_0101, `B` = 0x012C, `A` = 0xC350 (V-D-23). -/
theorem test_decode_divmod :
    decodeWord 0b00000101_0000000100101100_1100001101010000#40 = .ok (.divmod 0xC350 0x012C) := by decide
/-- V-E-1 to V-E-7. -/
theorem test_decode_illegal :
    ([0x0000000000#40, 0x0100000001#40, 0x0200010000#40, 0x0300000100#40, 0x0400010000#40, 0x06FFFFFFFF#40,
      0xFF00000000#40].map fun w => (decodeWord w).toOption) = List.replicate 7 none := by decide
/-- The host's table words: DIVMOD 95, 7 as a number, and a number too long for its bits. -/
theorem test_table_word :
    decodeTableWord 40 0x050007005F = some (.divmod 95 7) ∧ decodeTableWord 8 0x100 = none := by decide

/-! ## One step, against the vectors of 95_test_vectors.md -/

/-- V-F-CLEAR1. -/
theorem test_clear : answers (ready true [.command 0x0100000000]) = some ([0x0000000000], false) := by decide
/-- V-F-SET0. -/
theorem test_set : answers (ready false [.command 0x0200000000]) = some ([0x0100000000], true) := by decide
/-- V-F-READ1. -/
theorem test_read : answers (ready true [.command 0x0300000000]) = some ([0x0100000001], true) := by decide
/-- V-R-14: a set flag comes in and a set flag goes out. -/
theorem test_rol : answers (ready true [.command 0x040000C000]) = some ([0x0100008001], true) := by decide
/-- V-R-5: not a closed rotation. -/
theorem test_rol_not_closed : answers (ready false [.command 0x0400008000]) = some ([0x0100000000], true) := by decide
/-- V-D-12. -/
theorem test_divmod : answers (ready false [.command 0x058000FFFF]) = some ([0x007FFF0001], false) := by
  decide +kernel
/-- V-D-Z6 under both policies. -/
theorem test_divmod_by_zero :
    answers (ready true [.command 0x050000005F]) = some ([0x1100000000], true) ∧
    answers (readyWith .raw false .atomic true [.command 0x050000005F]) = some ([0x01005FFFFF], true) := by
  decide +kernel
/-- V-D-1 from C = 1 with the carry shared (section 2.3). -/
theorem test_divmod_shared :
    answers (readyWith .fault true .atomic true [.command 0x050007005F]) = some ([0x000004000D], false) := by
  decide +kernel
/-- V-E-4. -/
theorem test_illegal : answers (ready true [.command 0x0300000100]) = some ([0x2100000000], true) := by decide
/-- The trace of section 2.5 after iteration 13: Q = 1110000000000000, R = 4, F = 1. -/
theorem test_divider_trace :
    divIterations 7 13 (divInit 95) = ⟨0b1110000000000000#16, 4, true, 13⟩ := by decide +kernel
/-- The first fetch after reset runs the word placed. -/
theorem test_fetch_word :
    answers (State.reset.withFetchWord 40 0x0200000000) = some ([0x0100000000], true) := by decide
/-- R47, R48: any case, both number forms, a comment. -/
theorem test_assembler :
    assembleLineWord "dIvMod 95, 0x0007 ; note".toList = .ok (some 0x050007005F#40) ∧
    assembleLineWord "ROL 65536".toList = .error .operandRange := by decide
/-- A response with a reserved bit, or with status 3, is no response (R44). -/
theorem test_host_refuses : hostReads 0x0200000000#40 = none ∧ hostReads 0x3000000000#40 = none := by decide

/-! ## The hypotheses of the statements are met -/

theorem test_hyp_CommandWordHasThreeFields :
    (decodeWord 0x040000FFFF#40 = .ok (.rol 0xFFFF) ∧ (opField 0x040000FFFF#40).toNat ≠ 5) ∧
    (decodeWord 0x0300000000#40 = .ok .read ∧ (opField 0x0300000000#40).toNat ≠ 5 ∧
      (opField 0x0300000000#40).toNat ≠ 4) := by decide

theorem test_hyp_AssembledLinesGiveTheirWords :
    (65535 ≤ 65535 ∧ 0 ≤ 65535) ∧ assembleLineWord "SET".toList = .ok (some 0x0200000000#40) ∧
    assembleLineWord ("ROL ".toList ++ Nat.toDigits 10 65535) = .ok (some 0x040000FFFF#40) := by decide

theorem test_AssemblerReadsOperandNumbers_edges :
    parseOperand (Nat.toDigits 10 65535) = .ok 0xFFFF ∧
    parseOperand (Nat.toDigits 10 65536) = .error .operandRange ∧
    parseOperand ("0x".toList ++ (Nat.toDigits 16 65535).map Char.toUpper) = .ok 0xFFFF := by decide

theorem test_hyp_AssemblerIgnoresCommentsAndCase :
    "rOl".toList.map Char.toUpper = "ROL".toList.map Char.toUpper ∧ "rOl".toList.all Char.isAlpha = true ∧
    "ROL".toList.all Char.isAlpha = true := by decide

theorem test_hyp_ResponseWordLayout : hostReads 0x0100000001#40 = some ⟨.ok, true, 0, 1⟩ := by decide

theorem test_hyp_ResponsesStayPossible :
    (ready false [.command 0x0200000000]).responses.all responsePossible = true ∧
    (nextOf (step (ready false [.command 0x0200000000]))).isSome = true := by decide

theorem test_hyp_OneResponsePerAnsweredCommand :
    (nextOf (step (ready false []))).isSome = true ∧
    ((ready false [.command 0x06FFFFFFFF]).phase = .idle ∧
      (ready false [.command 0x06FFFFFFFF]).inputs = .command 0x06FFFFFFFF :: [] ∧
      (ready false [.command 0x06FFFFFFFF]).params.divmodForm = .atomic) ∧
    (busy .close ⟨0, 0, false, 16⟩ [.reset]).inputs = .reset :: [] ∧
    ((ready false [.aborted 0x0200000000]).phase = .idle ∧
      (ready false [.aborted 0x0200000000]).inputs = .aborted 0x0200000000 :: []) := by decide

theorem test_hyp_StepRunsTheDecodedCommand :
    (ready true [.command 0x0300000000]).phase = .idle ∧
    (ready true [.command 0x0300000000]).inputs = .command 0x0300000000 :: [] ∧
    decodeWord 0x0300000000#40 = .ok .read ∧ (∀ a b, Instr.read ≠ .divmod a b) ∧
    (decodeWord 0x0500000001#40 = .ok (.divmod 1 0) ∧
      (readyWith .fault false .stepped true []).params.div0Policy = .fault) :=
  ⟨by decide, by decide, by decide, nofun, by decide⟩

theorem test_hyp_BusyBlockRefusesCommands :
    (busy .done ⟨0, 0, false, 17⟩ [.command 0x0200000000]).phase ≠ .idle ∧
    overlaps (step (busy .done ⟨0, 0, false, 17⟩ [.command 0x0200000000])) = true ∧
    overlaps (step (busy (.iter .a) ⟨95, 0, false, 0⟩ [.aborted 0x0200000000])) = true := by decide

theorem test_hyp_IdleBlockHoldsItsState :
    (ready true []).phase = .idle ∧ (ready true []).inputs = [] ∧ (ready true [.wait]).inputs = .wait :: [] := by decide

theorem test_hyp_ResetEventEffect :
    (busy (.iter .c) ⟨95, 0, false, 0⟩ [.reset]).inputs = .reset :: [] ∧
    (busy (.iter .c) ⟨95, 0, false, 0⟩ [.reset]).params.carryReset = some true := by decide

theorem test_hyp_ResetAbortsTheCommand :
    ((ready false [.aborted 0x0200000000]).phase = .idle ∧
      (ready false [.aborted 0x0200000000]).inputs = .aborted 0x0200000000 :: []) ∧
    ((busy (.iter .b) ⟨95, 0, false, 0⟩ [.reset]).phase ≠ .idle ∧
      (busy (.iter .b) ⟨95, 0, false, 0⟩ [.reset]).outstanding = some 0x050007005F#40 ∧
      (busy (.iter .b) ⟨95, 0, false, 0⟩ [.reset]).inputs = .reset :: []) ∧
    (ready false []).params.carryReset = some false := by decide

theorem test_hyp_StateAfterReset :
    Config.defaultParams.carryReset = some false ∧
    (State.powerOn ⟨.raw, true, some true, .stepped⟩).c = true := by decide

theorem test_hyp_ClearMeaning :
    opField 0x0100000001#40 = 0x01#8 ∧ aField 0x0100000001#40 ≠ 0 ∧ opField 0x0180000000#40 = 0x01#8 ∧
    bField 0x0180000000#40 ≠ 0 := by decide

theorem test_hyp_SetMeaning :
    opField 0x0200000001#40 = 0x02#8 ∧ aField 0x0200000001#40 ≠ 0 ∧ opField 0x0200010000#40 = 0x02#8 ∧
    bField 0x0200010000#40 ≠ 0 := by decide

theorem test_hyp_ReadMeaning :
    opField 0x0300000100#40 = 0x03#8 ∧ aField 0x0300000100#40 ≠ 0 ∧ opField 0x0300010000#40 = 0x03#8 ∧
    bField 0x0300010000#40 ≠ 0 := by decide

theorem test_hyp_CarryCommandLaws : Instr.read ∈ [Instr.clear, .set, .read] := by decide

theorem test_hyp_RolMeaning : opField 0x0400010000#40 = 0x04#8 ∧ bField 0x0400010000#40 ≠ 0 := by decide

/-- P2 of section 3: 0x8001C000 shifted left by one. -/
theorem test_hyp_RolChainShiftsManyWords :
    (ready false []).phase = .idle ∧
    (nextOf (runSteps 2 (ready false (hostScript [0x040000C000, 0x0400008001])))).map observable =
      some ([0x0100008000, 0x0100000003], true) ∧
    wordsValue [0xC000, 0x8001] = 0x8001C000 := by decide

theorem test_hyp_DividerComputesQuotientAndRemainder : (1 : Word16) ≠ 0 ∧ (0xFFFF : Word16) ≠ 0 := by decide

theorem test_hyp_DivisionBoundAndReconstruction : 1 ≤ (1 : Word16).toNat ∧ 1 ≤ (0xFFFF : Word16).toNat := by decide

theorem test_hyp_PartialRemainderFitsItsWidth :
    (1 ≤ 1 ∧ 1 ≤ 16 ∧ 16 ≤ 16) ∧ 1 ≤ (0xFFFF : Word16).toNat ∧
    (1 : Word16).toNat ≤ (divStepB (divStepA (divIterations 1 0 (divInit 0x8000)))).r.toNat := by decide

theorem test_hyp_IterationBitMapping :
    (1 ≤ 1 ∧ 16 ≤ 16) ∧ (divIterations 7 16 (divInit 95)).f = (divRun 95 7).q.getLsbD 0 := by decide +kernel

theorem test_hyp_DivisionCornerCases :
    (7 : Word16) ≠ 0 ∧ (3 : Word16) < 7 ∧ (ready false []).params.div0Policy = .fault ∧
    (readyWith .raw false .atomic false []).params.div0Policy = .raw := by decide

theorem test_hyp_DivmodQuotientAndRemainder : (7 : Word16) ≠ 0 := by decide

theorem test_hyp_DivisionByZeroFaultPolicy : (ready true []).params.div0Policy = .fault := by decide

theorem test_hyp_DivisionByZeroRawPolicy :
    (readyWith .raw true .atomic true []).params.div0Policy = .raw ∧ (1 ≤ 1 ∧ 16 ≤ 16) := by decide

theorem test_hyp_DivmodAndTheCarryFlag :
    (ready true []).params.divmodSharesCarry = false ∧
    (readyWith .fault true .atomic true []).params.divmodSharesCarry = true ∧
    responseOk 0x000004000D#40 = true ∧ responseOk 0x1100000000#40 = false := by decide

theorem test_hyp_DivmodForgetsHistory :
    (ready true []).params.div0Policy = (readyWith .fault true .atomic false []).params.div0Policy ∧
    ready true [] ≠ readyWith .fault true .atomic false [] := by decide

theorem test_hyp_MicroStepTable :
    ((readyWith .raw false .stepped true [.command 0x0500000001]).phase = .idle ∧
      (readyWith .raw false .stepped true [.command 0x0500000001]).params.divmodForm = .stepped ∧
      (readyWith .raw false .stepped true [.command 0x0500000001]).params.div0Policy = .raw ∧
      (readyWith .raw false .stepped true [.command 0x0500000001]).inputs = .command (encode (.divmod 1 0)) :: []) ∧
    ((busy (.iter .c) ⟨0, 0, false, 15⟩ []).inputs = [] ∧ (busy (.iter .c) ⟨0, 0, false, 15⟩ []).div.k < 16 ∧
      (busy (.iter .c) ⟨0, 0, false, 15⟩ []).outstanding = some 0x050007005F#40 ∧
      ((nextOf (step (busy (.iter .c) ⟨0, 0, false, 15⟩ []))).map (·.phase)) = some .close) ∧
    ((nextOf (step (busy (.iter .a) ⟨0, 0, false, 15⟩ []))).map (·.phase) = some (.iter .b)) ∧
    ((nextOf (step (busy (.iter .b) ⟨0, 0, false, 0⟩ []))).map (·.phase) = some (.iter .c)) ∧
    ((nextOf (step (busy .close ⟨0, 0, false, 16⟩ []))).map (·.phase) = some .done) ∧
    ((nextOf (step (busy .done ⟨13, 4, false, 17⟩ []))).map (·.responses) = some [0x000004000D]) := by
  decide +kernel

theorem test_hyp_DivisionTakesFortyNineSteps :
    ((readyWith .fault false .stepped true [.command (encode (.divmod 95 7))]).phase = .idle ∧
      (readyWith .fault false .stepped true [.command (encode (.divmod 95 7))]).params.divmodForm = .stepped ∧
      (7 : Word16) ≠ 0 ∧ 49 ≤ 49) ∧
    ((ready true [.command (encode (.divmod 95 0))]).phase = .idle ∧
      (ready true [.command (encode (.divmod 95 0))]).params.div0Policy = .fault) := by decide

theorem test_hyp_SteppedDivisionEqualsAtomic :
    (readyWith .raw true .stepped true
        (.command (encode (.divmod 95 0)) :: (List.replicate 50 .wait ++ [.reset]))).phase = .idle ∧
    (readyWith .raw true .stepped true
        (.command (encode (.divmod 95 0)) :: (List.replicate 50 .wait ++ [.reset]))).params.divmodForm = .stepped ∧
    (readyWith .raw true .stepped true
        (.command (encode (.divmod 95 0)) :: (List.replicate 50 .wait ++ [.reset]))).params.div0Policy = .raw := by
  decide

theorem test_hyp_FormsAgreeOnEveryRun : (ready true []).phase = .idle := by decide

theorem test_hyp_IllegalWordsRaiseIllegalCommand :
    (ready true [.command 0x06FFFFFFFF]).phase = .idle ∧
    (ready true [.command 0x06FFFFFFFF]).inputs = .command 0x06FFFFFFFF :: [] ∧
    answers (ready true [.command 0x06FFFFFFFF]) = some ([0x2100000000], true) := by decide

theorem test_hyp_ErrorResponseChangesNothing :
    decodeWord 0x0400010000#40 = .error .nonzeroB ∧
    decodeWord 0x050000FFFF#40 = .ok (.divmod 0xFFFF 0) ∧
    (ready true [.command 0x050000FFFF]).phase = .idle ∧
    (ready true [.command 0x050000FFFF]).params.div0Policy = .fault := by decide

theorem test_hyp_ExceptionsArePrecise :
    (nextOf (step (ready true [.command 0x0500001234]))).map (·.responses) =
      some ((ready true [.command 0x0500001234]).responses ++ [0x1100000000#40]) ∧
    responseOk 0x1100000000#40 = false := by decide

theorem test_hyp_ErrorDoesNotAffectTheNextCommand :
    (ready true [.command 0x0000000000, .command 0x0300000000]).phase = .idle ∧
    decodeWord 0x0000000000#40 = .error (.unassignedOpcode 0) ∧
    decodeWord 0x0500001234#40 = .ok (.divmod 0x1234 0) ∧
    (ready true []).params.div0Policy = .fault ∧
    (nextOf (step { ready true [.command 0x0000000000, .command 0x0300000000] with
      inputs := .command 0x0300000000 :: [] })).isSome = true := by decide

theorem test_hyp_OnlyTheListedEventsWriteCarry :
    (nextOf (step (ready false [.command 0x0200000000]))).map (·.c) = some true ∧
    (nextOf (step (readyWith .fault false .atomic false [.reset]))).map (·.c) = some true ∧
    (nextOf (step { busy .done ⟨13, 4, true, 17⟩ [] with params := ⟨.fault, true, some false, .stepped⟩ })).map (·.c)
      = some true := by decide

theorem test_hyp_ParametersAreFixed :
    (nextOf (step (readyWith .raw true .stepped true [.reset]))).map (·.params) =
      some ⟨.raw, true, some true, .stepped⟩ := by decide

/-- R91, R99: the host of instance 1 overlaps commands, so its run is refused; the ROL of instance 0 is answered, and the fault
of instance 2 stays. -/
theorem test_hyp_InstancesAreIndependent :
    (platformRun [1, 0, 1, 2]
        [.next (ready false [.command 0x0400008000]),
          .next (busy (.iter .a) ⟨95, 0, false, 0⟩ [.command 0x0300000000]),
          .fault .noOutstandingCommand]).map
      (fun x => ((nextOf x).map (·.c), match x with | .next _ => 0 | .fault _ => 1 | .refused _ => 2)) =
      [(some true, 0), (none, 2), (none, 1)] := by decide

theorem test_hyp_EveryCommandIsAnswered :
    (ready false []).phase = .idle ∧ (ready false []).params.divmodForm = .atomic := by decide

theorem test_hyp_StepKeepsTheMachineInvariant :
    MachineInv (busy (.iter .a) ⟨95, 0, false, 0⟩ []) ∧
    (nextOf (step (busy (.iter .a) ⟨95, 0, false, 0⟩ []))).isSome = true :=
  ⟨⟨⟨⟨by decide, by decide⟩, by decide, by decide⟩, by decide, by decide⟩, by decide⟩

theorem test_hyp_BlockNeverGetsStuck :
    MachineInv (ready false []) ∧ MachineInv (busy (.iter .a) ⟨95, 0, false, 0⟩ [.command 0]) :=
  ⟨⟨trivial, by decide, by decide⟩, ⟨⟨⟨by decide, by decide⟩, by decide, by decide⟩, by decide, by decide⟩⟩

end Sys2Proof.Tests
end

/-! ## What every step keeps of the responses (30_encoding.md R44) -/

namespace Sys2Proof.Machine

/-- The trace of `t` is that of `s` with at most one more response, and that one was built by `respond`. -/
def RespondsAtMostOnce (s t : State) : Prop :=
  t.responses = s.responses ∨
    ∃ st cf y1 y0, t.responses = s.responses ++ [responseWord st cf y1 y0]

theorem exec_respondsAtMostOnce {i : Instr} {s t : State} (h : exec i s = .next t) : RespondsAtMostOnce s t := by
  obtain ⟨-, he⟩ | ⟨-, he⟩ | ⟨-, he⟩ | ⟨a, -, he⟩ | ⟨a, b, -, -, he⟩ | ⟨a, b, -, -, he⟩ := exec_cases i s
  all_goals obtain rfl := Host.Outcome.next.inj (he.symm.trans h)
  case inr.inr.inr.inr.inr => exact .inr ⟨_, _, _, _, finishDivision_responses _ _⟩
  all_goals exact .inr ⟨_, _, _, _, rfl⟩

theorem dividerTick_respondsAtMostOnce {s t : State} (h : dividerTick s = .next t) : RespondsAtMostOnce s t := by
  obtain ⟨-, rfl⟩ | ⟨-, -, rfl⟩ | ⟨-, -, rfl⟩ | ⟨w, -, -, -, rfl⟩ | ⟨-, rfl⟩ | ⟨-, rfl⟩ := dividerTick_cases h
  case inr.inr.inr.inr.inr => exact .inr ⟨_, _, _, _, finishDivision_responses _ _⟩
  all_goals exact .inl rfl

/-- R42: every response a step adds is a response word of the four fields, whatever the step. -/
theorem step_respondsAtMostOnce {s t : State} (h : step s = .next t) : RespondsAtMostOnce s t := by
  obtain (⟨-, ht⟩ | ⟨rest, -, ht⟩) | ⟨rest, -, rfl⟩ | ⟨w, rest, -, -, rfl⟩ | ⟨w, rest, -, -, hc⟩ := step_cases h
  · exact dividerTick_respondsAtMostOnce ht
  · exact dividerTick_respondsAtMostOnce (s := dropInput s) ht
  · exact .inl rfl
  · exact .inl rfl
  · obtain ⟨e, -, rfl⟩ | ⟨a, b, -, -, -, rfl⟩ | ⟨i, -, -, he⟩ := hc
    · exact .inr ⟨_, _, _, _, raiseException_responses _ _⟩
    · exact .inl rfl
    · exact exec_respondsAtMostOnce (s := dropInput s) he

theorem RespondsAtMostOnce.keeps_possible {s t : State} (h : RespondsAtMostOnce s t)
    (hs : s.responses.all responsePossible = true) : t.responses.all responsePossible = true := by
  obtain he | ⟨st, cf, y1, y0, he⟩ := h
  · rwa [he]
  · rw [he, List.all_append, hs]
    simp

/-- The check on a response, on the numbers of its two fields. -/
theorem responsePossible_iff (w : Word40) :
    responsePossible w = true ↔ rspReserved w = 0 ∧ (rspStatus w).toNat ≤ 2 := by
  simp [responsePossible]

/-- R43: the status codes that stand for nothing are 3 to 15. -/
theorem statusOfCode_eq_none_iff (code : BitVec 4) : statusOfCode code = none ↔ ¬ code.toNat ≤ 2 := by
  revert code
  decide

theorem hostReads_eq_none_iff (w : Word40) : hostReads w = none ↔ responsePossible w = false := by
  rw [← Bool.not_eq_true, responsePossible_iff, hostReads]
  split <;> simp_all [statusOfCode_eq_none_iff]

/-- Settles O10: every response a step adds is a `responseWord`, which the check passes; the check and the host's reading
look at the same two fields. -/
theorem responsesStayPossible : Obligations.ResponsesStayPossible := by
  unfold Obligations.ResponsesStayPossible
  refine ⟨fun s t hs h => (step_respondsAtMostOnce h).keeps_possible hs, fun w => ?_, hostReads_eq_none_iff⟩
  rw [responsePossible_iff, rspStatus_toNat, ← rspReserved_toNat, ← BitVec.toNat_inj]
  rfl

end Sys2Proof.Machine

/-! ## Command words: fields, decoder and encoder (30_encoding.md R36 to R41) -/

namespace Sys2Proof

open Machine

/-- R36: the fields of a word rebuild it. -/
@[simp] theorem joinCommand_splitCommand (w : Word40) : joinCommand (splitCommand w) = w := by
  apply BitVec.eq_of_toNat_eq
  simp only [joinCommand_toNat, splitCommand, opField_toNat, bField_toNat, aField_toNat]
  omega

section JoinedFields

variable (f : CommandFields)

@[simp] theorem opField_joinCommand : opField (joinCommand f) = f.op := by
  have hb := f.b.isLt
  have ha := f.a.isLt
  apply BitVec.eq_of_toNat_eq
  rw [opField_toNat, joinCommand_toNat]
  omega

@[simp] theorem bField_joinCommand : bField (joinCommand f) = f.b := by
  have hb := f.b.isLt
  have ha := f.a.isLt
  apply BitVec.eq_of_toNat_eq
  rw [bField_toNat, joinCommand_toNat]
  omega

@[simp] theorem aField_joinCommand : aField (joinCommand f) = f.a := by
  have ha := f.a.isLt
  apply BitVec.eq_of_toNat_eq
  rw [aField_toNat, joinCommand_toNat]
  omega

end JoinedFields

theorem splitCommand_eq_iff {w : Word40} {f : CommandFields} : splitCommand w = f ↔ w = joinCommand f := by
  constructor
  · rintro rfl
    simp
  · rintro rfl
    simp [splitCommand]

/-- A word is given by its three fields. -/
theorem eq_joinCommand_iff_fields {w : Word40} {f : CommandFields} :
    w = joinCommand f ↔ opField w = f.op ∧ bField w = f.b ∧ aField w = f.a := by
  obtain ⟨op, b, a⟩ := f
  rw [← splitCommand_eq_iff, splitCommand, CommandFields.mk.injEq]

/-- R40 read backwards: fields decode to a command exactly when they are that command's. -/
theorem decodeFields_eq_ok_iff {f : CommandFields} {i : Instr} : decodeFields f = .ok i ↔ f = encodeFields i := by
  constructor
  · obtain ⟨op, b, a⟩ := f
    intro h
    unfold decodeFields at h
    split_ifs at h <;> cases h <;> simp_all [encodeFields]
  · rintro rfl
    cases i <;> simp [encodeFields, decodeFields]

/-- A word decodes to the one command that encodes to it. -/
theorem decodeWord_eq_ok_iff {w : Word40} {i : Instr} : decodeWord w = .ok i ↔ w = encode i :=
  decodeFields_eq_ok_iff.trans splitCommand_eq_iff

@[simp] theorem decodeWord_encode (i : Instr) : decodeWord (encode i) = .ok i := decodeWord_eq_ok_iff.mpr rfl

theorem decodeWord_eq_ok_iff_fields {w : Word40} {i : Instr} :
    decodeWord w = .ok i ↔
      opField w = (encodeFields i).op ∧ bField w = (encodeFields i).b ∧ aField w = (encodeFields i).a :=
  decodeWord_eq_ok_iff.trans eq_joinCommand_iff_fields

/-- R36, R39: the must-be-zero fields of a legal word. -/
theorem mustBeZero_of_decodeWord_eq_ok {w : Word40} {i : Instr} (h : decodeWord w = .ok i) :
    ((opField w).toNat ≠ 5 → bField w = 0) ∧
      ((opField w).toNat ≠ 5 → (opField w).toNat ≠ 4 → aField w = 0) := by
  obtain ⟨hop, hb, ha⟩ := decodeWord_eq_ok_iff_fields.mp h
  rw [hop, hb, ha]
  cases i <;> simp [encodeFields]

/-- Settles O1: the word is the join of its fields, whose number is R36's sum, and a legal word has its command's fields. -/
theorem commandWordHasThreeFields : Obligations.CommandWordHasThreeFields := by
  unfold Obligations.CommandWordHasThreeFields
  refine ⟨fun w => ⟨opField_toNat w, bField_toNat w, aField_toNat w, ?_,
    fun i h => mustBeZero_of_decodeWord_eq_ok h⟩, rfl⟩
  calc w.toNat = (joinCommand (splitCommand w)).toNat := by rw [joinCommand_splitCommand]
    _ = _ := joinCommand_toNat _

/-! ## The rows of the opcode map as masks (30_encoding.md R38) -/

@[simp] theorem opField_and (w m : Word40) : opField (w &&& m) = opField w &&& opField m := BitVec.extractLsb'_and

@[simp] theorem bField_and (w m : Word40) : bField (w &&& m) = bField w &&& bField m := BitVec.extractLsb'_and

@[simp] theorem aField_and (w m : Word40) : aField (w &&& m) = aField w &&& aField m := BitVec.extractLsb'_and

/-- The rows whose mask covers the whole word: `CLEAR`, `SET` and `READ`. -/
theorem decodeWord_eq_ok_iff_wholeMask {w : Word40} {i : Instr} :
    decodeWord w = .ok i ↔ w &&& 0xFFFFFFFFFF#40 = encode i := by
  rw [decodeWord_eq_ok_iff, show 0xFFFFFFFFFF#40 = BitVec.allOnes 40 from rfl, BitVec.and_allOnes]

/-- The row of `ROL`, whose mask leaves `A` free. -/
theorem decodeWord_eq_rol_iff_mask {w : Word40} :
    decodeWord w = .ok (.rol (aField w)) ↔ w &&& 0xFFFFFF0000#40 = 0x0400000000#40 := by
  have hmask : 0xFFFFFF0000#40 = joinCommand ⟨.allOnes 8, .allOnes 16, 0⟩ := rfl
  have hmatch : 0x0400000000#40 = joinCommand ⟨0x04#8, 0, 0⟩ := rfl
  rw [decodeWord_eq_ok_iff_fields, hmask, hmatch, eq_joinCommand_iff_fields]
  simp only [encodeFields, opField_and, bField_and, aField_and, opField_joinCommand, bField_joinCommand,
    aField_joinCommand, BitVec.and_allOnes, BitVec.ofNat_eq_ofNat, BitVec.and_zero, and_true]

/-- The row of `DIVMOD`, whose mask covers `OP` alone. -/
theorem decodeWord_eq_divmod_iff_mask {w : Word40} :
    decodeWord w = .ok (.divmod (aField w) (bField w)) ↔ w &&& 0xFF00000000#40 = 0x0500000000#40 := by
  have hmask : 0xFF00000000#40 = joinCommand ⟨.allOnes 8, 0, 0⟩ := rfl
  have hmatch : 0x0500000000#40 = joinCommand ⟨0x05#8, 0, 0⟩ := rfl
  rw [decodeWord_eq_ok_iff_fields, hmask, hmatch, eq_joinCommand_iff_fields]
  simp only [encodeFields, opField_and, bField_and, aField_and, opField_joinCommand, bField_joinCommand,
    aField_joinCommand, BitVec.and_allOnes, BitVec.ofNat_eq_ofNat, BitVec.and_zero, and_true]

/-- A word is illegal when it is none of the five commands on its own fields. -/
theorem decodeWord_eq_error_iff {w : Word40} :
    (∃ e, decodeWord w = .error e) ↔
      decodeWord w ≠ .ok .clear ∧ decodeWord w ≠ .ok .set ∧ decodeWord w ≠ .ok .read ∧
        decodeWord w ≠ .ok (.rol (aField w)) ∧ decodeWord w ≠ .ok (.divmod (aField w) (bField w)) := by
  cases h : decodeWord w with
  | error e => simp
  | ok i =>
    obtain ⟨-, hb, ha⟩ := decodeWord_eq_ok_iff_fields.mp h
    cases i <;> simp_all [encodeFields]

/-- Rows that fix all of `OP`, each its own opcode, do not overlap: a row that takes the word has the word's opcode. -/
theorem countP_rows_le_one {rows : List (Word40 × Word40)} (w : Word40)
    (hmask : ∀ row ∈ rows, opField row.1 = .allOnes 8) (hop : (rows.map fun row => opField row.2).Nodup) :
    rows.countP (fun row => w &&& row.1 == row.2) ≤ 1 := by
  have htakes : ∀ row ∈ rows, (w &&& row.1 == row.2) = true → (opField row.2 == opField w) = true := by
    intro row hrow htake
    rw [beq_iff_eq] at htake ⊢
    rw [← htake, opField_and, hmask row hrow, BitVec.and_allOnes]
  calc rows.countP (fun row => w &&& row.1 == row.2)
      ≤ rows.countP (fun row => opField row.2 == opField w) := List.countP_mono_left htakes
    _ = (rows.map fun row => opField row.2).count (opField w) := by rw [List.count, List.countP_map]; rfl
    _ ≤ 1 := List.nodup_iff_count_le_one.mp hop _

/-- Settles O2: each row's mask compares the fields that the row's command fixes, a word that decodes does so through one row,
and every mask covers `OP`, which differs from row to row. -/
theorem opcodeMapRowsDecodeDisjointly : Obligations.OpcodeMapRowsDecodeDisjointly := by
  unfold Obligations.OpcodeMapRowsDecodeDisjointly
  intro w
  have hclear : decodeWord w = .ok .clear ↔ w &&& 0xFFFFFFFFFF#40 = 0x0100000000#40 := decodeWord_eq_ok_iff_wholeMask
  have hset : decodeWord w = .ok .set ↔ w &&& 0xFFFFFFFFFF#40 = 0x0200000000#40 := decodeWord_eq_ok_iff_wholeMask
  have hread : decodeWord w = .ok .read ↔ w &&& 0xFFFFFFFFFF#40 = 0x0300000000#40 := decodeWord_eq_ok_iff_wholeMask
  refine ⟨hclear, hset, hread, decodeWord_eq_rol_iff_mask, decodeWord_eq_divmod_iff_mask, ?_,
    countP_rows_le_one w (by simp [opField]) (by decide)⟩
  simp [decodeWord_eq_error_iff, hclear, hset, hread, decodeWord_eq_rol_iff_mask, decodeWord_eq_divmod_iff_mask]

end Sys2Proof

/-! ## The assembler: the words of the five lines (30_encoding.md R47, R48) -/

namespace Sys2Proof.Machine

/-! ### Numbers -/

theorem digitsFrom_append (base acc : Nat) (xs ys : List Char) :
    digitsFrom base acc (xs ++ ys) = (digitsFrom base acc xs).bind fun v => digitsFrom base v ys := by
  induction xs generalizing acc with
  | nil => rfl
  | cons x xs ih =>
    simp only [List.cons_append, digitsFrom]
    cases digitValue base x with
    | none => rfl
    | some v => exact ih _

/-- The digits of a number are read back as that number, in whatever way `f` writes them. -/
theorem digitsFrom_map_toDigits {base : Nat} (hbase : 1 < base) {f : Char → Char}
    (hf : ∀ d < base, digitValue base (f d.digitChar) = some d) (n : Nat) :
    digitsFrom base 0 ((Nat.toDigits base n).map f) = some n := by
  induction n using Nat.strongRecOn with
  | ind n ih =>
    rw [Nat.toDigits_eq_if hbase]
    split
    next hlt => simp [digitsFrom, hf n hlt]
    next hge =>
      have hdiv : n / base < n := Nat.div_lt_self (by omega) hbase
      rw [List.map_append, digitsFrom_append, ih _ hdiv]
      simp [digitsFrom, hf _ (Nat.mod_lt n (by omega)), Nat.div_add_mod']

theorem digitValue_ten_digitChar : ∀ d < 10, digitValue 10 d.digitChar = some d := by decide

/-- The text of a number in decimal: one digit or more. -/
structure IsDecimal (cs : List Char) : Prop where
  ne_nil : cs ≠ []
  isDigit : ∀ ch ∈ cs, ch.isDigit = true

theorem isDecimal_toDigits (n : Nat) : IsDecimal (Nat.toDigits 10 n) :=
  ⟨Nat.toDigits_ne_nil, fun _ => Nat.isDigit_of_mem_toDigits (by decide) (by decide)⟩

/-- A text that begins with `0x` is no row of decimal digits. -/
theorem parseNumber_of_isDecimal {cs : List Char} (h : IsDecimal cs) : parseNumber cs = digitsFrom 10 0 cs := by
  obtain ⟨hne, hdigits⟩ := h
  unfold parseNumber
  split
  · exact absurd (hdigits 'x' (by simp)) (by decide)
  · simp [digitsValue, hne]

theorem parseNumber_toDigits (n : Nat) : parseNumber (Nat.toDigits 10 n) = some n := by
  rw [parseNumber_of_isDecimal (isDecimal_toDigits n)]
  simpa using digitsFrom_map_toDigits (f := id) (by decide) digitValue_ten_digitChar n

/-- R47: an operand in decimal. -/
theorem parseOperand_toDigits {n : Nat} (h : n ≤ 65535) :
    parseOperand (Nat.toDigits 10 n) = .ok (BitVec.ofNat 16 n) := by
  simp [parseOperand, parseNumber_toDigits, operandInRange, h]

/-! ### Blanks, comments and commas -/

theorem ne_of_isAlphanum {ch sep : Char} (h : ch.isAlphanum = true) (hsep : sep.isAlphanum = false) : ch ≠ sep := by
  rintro rfl
  simp [h] at hsep

theorem isBlank_of_isAlphanum {ch : Char} (h : ch.isAlphanum = true) : isBlank ch = false := by
  simp [isBlank, ne_of_isAlphanum h (sep := ' '), ne_of_isAlphanum h (sep := '\t'), ne_of_isAlphanum h (sep := '\r')]

/-- Text that neither begins nor ends with a blank has none around it. -/
theorem trimBlanks_eq_self {cs : List Char} (hne : cs ≠ []) (hfirst : isBlank (cs.head hne) = false)
    (hlast : isBlank (cs.getLast hne) = false) : trimBlanks cs = cs := by
  have hdrop : cs.dropWhile isBlank = cs :=
    List.dropWhile_eq_self_iff.mpr fun _ => by simpa [List.head_eq_getElem] using hfirst
  rw [trimBlanks, hdrop]
  exact List.rdropWhile_eq_self_iff.mpr fun _ => by simpa using hlast

@[simp] theorem trimBlanks_space_cons (cs : List Char) : trimBlanks (' ' :: cs) = trimBlanks cs := by
  rw [trimBlanks, List.dropWhile_cons_of_pos (by decide), trimBlanks]

section Decimal

variable {ds : List Char} (h : IsDecimal ds)

include h

theorem IsDecimal.isAlphanum_of_mem {ch : Char} (hch : ch ∈ ds) : ch.isAlphanum = true := by
  simp [Char.isAlphanum, h.isDigit ch hch]

theorem IsDecimal.ne_of_mem {sep : Char} (hsep : sep.isAlphanum = false) : ∀ ch ∈ ds, ch ≠ sep :=
  fun _ hch => ne_of_isAlphanum (h.isAlphanum_of_mem hch) hsep

theorem IsDecimal.isBlank_head : isBlank (ds.head h.ne_nil) = false :=
  isBlank_of_isAlphanum (h.isAlphanum_of_mem (List.head_mem h.ne_nil))

theorem IsDecimal.isBlank_getLast : isBlank (ds.getLast h.ne_nil) = false :=
  isBlank_of_isAlphanum (h.isAlphanum_of_mem (List.getLast_mem h.ne_nil))

theorem IsDecimal.isBlank_getLast_append_comma (xs : List Char) :
    isBlank ((xs ++ ',' :: ' ' :: ds).getLast (by simp)) = false := by
  simpa [List.getLast_append_of_ne_nil, List.getLast_cons, h.ne_nil] using h.isBlank_getLast

theorem IsDecimal.trimBlanks_eq : trimBlanks ds = ds := trimBlanks_eq_self h.ne_nil h.isBlank_head h.isBlank_getLast

end Decimal

theorem stripComment_eq_self {cs : List Char} (h : ∀ ch ∈ cs, ch ≠ ';') : stripComment cs = cs :=
  List.takeWhile_eq_self_iff.mpr fun ch hch => by simpa using h ch hch

theorem splitCommas_of_no_comma {cs : List Char} (h : ∀ ch ∈ cs, ch ≠ ',') : splitCommas cs = [cs] := by
  induction cs with
  | nil => rfl
  | cons ch cs ih =>
    obtain ⟨hch, hcs⟩ := List.forall_mem_cons.mp h
    simp [splitCommas, hch, ih hcs]

theorem splitCommas_append_comma {xs : List Char} (h : ∀ ch ∈ xs, ch ≠ ',') (ys : List Char) :
    splitCommas (xs ++ ',' :: ys) = xs :: splitCommas ys := by
  induction xs with
  | nil => simp [splitCommas]
  | cons ch xs ih =>
    obtain ⟨hch, hxs⟩ := List.forall_mem_cons.mp h
    simp [splitCommas, hch, ih hxs]

/-! ### A line with operands -/

/-- A line of a mnemonic, a blank and operands, with no comment and no blank before or after, is read as that mnemonic with the
operands after it. -/
theorem assembleLine_of_mnemonic_blank {m tail : List Char} (hm : m ≠ []) (htail : tail ≠ [])
    (hletters : m.all Char.isAlphanum = true) (hlast : isBlank (tail.getLast htail) = false)
    (hcomment : ∀ ch ∈ tail, ch ≠ ';') :
    assembleLine (m ++ ' ' :: tail) =
      (assembleForm (m.map Char.toUpper) (operandTexts (' ' :: tail))).map some := by
  have hmblank : ∀ ch ∈ m, isBlank ch = false :=
    fun ch hch => isBlank_of_isAlphanum (List.all_eq_true.mp hletters ch hch)
  have hmcomment : ∀ ch ∈ m, ch ≠ ';' :=
    fun ch hch => ne_of_isAlphanum (List.all_eq_true.mp hletters ch hch) (by decide)
  have htext : trimBlanks (stripComment (m ++ ' ' :: tail)) = m ++ ' ' :: tail := by
    rw [stripComment_eq_self (List.forall_mem_append.mpr
      ⟨hmcomment, List.forall_mem_cons.mpr ⟨by decide, hcomment⟩⟩)]
    refine trimBlanks_eq_self (by simp) ?_ ?_
    · rw [List.head_append_of_ne_nil hm]
      exact hmblank _ (List.head_mem hm)
    · simpa [List.getLast_append_of_ne_nil, List.getLast_cons htail] using hlast
  have hmnemonic : ∀ ch ∈ m, (!isBlank ch) = true := by simpa using hmblank
  have htake : (m ++ ' ' :: tail).takeWhile (!isBlank ·) = m := by
    rw [List.takeWhile_append_of_pos hmnemonic]
    simp [isBlank]
  have hdrop : (m ++ ' ' :: tail).dropWhile (!isBlank ·) = ' ' :: tail := by
    rw [List.dropWhile_append_of_pos hmnemonic]
    simp [isBlank]
  have hne : (m ++ ' ' :: tail).isEmpty = false := by simp
  simp only [assembleLine, htext, htake, hdrop, hne]
  cases assembleForm (m.map Char.toUpper) (operandTexts (' ' :: tail)) <;> rfl

theorem assembleLineWord_of_assembleLine {line : List Char} {i : Instr} (h : assembleLine line = .ok (some i)) :
    assembleLineWord line = .ok (some (encode i)) := by
  rw [assembleLineWord, h]

/-- Every word of the assembler is the encoding of a command. -/
theorem eq_encode_of_assembleLineWord {line : List Char} {w : Word40} (h : assembleLineWord line = .ok (some w)) :
    ∃ i, w = encode i := by
  unfold assembleLineWord at h
  split at h <;> cases h
  exact ⟨_, rfl⟩

/-! ### `ROL a` and `DIVMOD a, b` -/

section Operands

variable {da db : List Char} (ha : IsDecimal da) (hb : IsDecimal db)

include ha

theorem operandTexts_one : operandTexts (' ' :: da) = [da] := by
  have hsplit : splitCommas (' ' :: da) = [' ' :: da] :=
    splitCommas_of_no_comma (List.forall_mem_cons.mpr ⟨by decide, ha.ne_of_mem (by decide)⟩)
  simp [operandTexts, hsplit, ha.trimBlanks_eq, ha.ne_nil]

theorem assembleLine_rol :
    assembleLine ("ROL".toList ++ ' ' :: da) = (assembleForm "ROL".toList [da]).map some := by
  rw [assembleLine_of_mnemonic_blank (by decide) ha.ne_nil (by decide) ha.isBlank_getLast (ha.ne_of_mem (by decide)),
    operandTexts_one ha]
  rfl

include hb

theorem operandTexts_two : operandTexts (' ' :: (da ++ ',' :: ' ' :: db)) = [da, db] := by
  have hfirst : ∀ ch ∈ ' ' :: da, ch ≠ ',' := List.forall_mem_cons.mpr ⟨by decide, ha.ne_of_mem (by decide)⟩
  have hsecond : ∀ ch ∈ ' ' :: db, ch ≠ ',' := List.forall_mem_cons.mpr ⟨by decide, hb.ne_of_mem (by decide)⟩
  have hsplit : splitCommas (' ' :: (da ++ ',' :: ' ' :: db)) = [' ' :: da, ' ' :: db] := by
    rw [← List.cons_append, splitCommas_append_comma hfirst, splitCommas_of_no_comma hsecond]
  have htrim : trimBlanks (da ++ ',' :: ' ' :: db) = da ++ ',' :: ' ' :: db := by
    refine trimBlanks_eq_self (by simp) ?_ (hb.isBlank_getLast_append_comma da)
    rw [List.head_append_of_ne_nil ha.ne_nil]
    exact ha.isBlank_head
  simp [operandTexts, hsplit, htrim, ha.trimBlanks_eq, hb.trimBlanks_eq]

theorem assembleLine_divmod :
    assembleLine ("DIVMOD".toList ++ ' ' :: (da ++ ',' :: ' ' :: db)) =
      (assembleForm "DIVMOD".toList [da, db]).map some := by
  have hcomment : ∀ ch ∈ da ++ ',' :: ' ' :: db, ch ≠ ';' := List.forall_mem_append.mpr
    ⟨ha.ne_of_mem (by decide), List.forall_mem_cons.mpr ⟨by decide,
      List.forall_mem_cons.mpr ⟨by decide, hb.ne_of_mem (by decide)⟩⟩⟩
  rw [assembleLine_of_mnemonic_blank (by decide) (by simp) (by decide) (hb.isBlank_getLast_append_comma da) hcomment,
    operandTexts_two ha hb]
  rfl

end Operands

/-- R48: the words of the two commands with operands, as numbers. -/
theorem encode_rol_ofNat {a : Nat} (ha : a ≤ 65535) :
    encode (.rol (BitVec.ofNat 16 a)) = BitVec.ofNat 40 (0x04 * 2 ^ 32 + a) := by
  apply BitVec.eq_of_toNat_eq
  rw [encode, joinCommand_toNat]
  simp only [encodeFields, BitVec.toNat_ofNat, BitVec.ofNat_eq_ofNat]
  omega

theorem encode_divmod_ofNat {a b : Nat} (ha : a ≤ 65535) (hb : b ≤ 65535) :
    encode (.divmod (BitVec.ofNat 16 a) (BitVec.ofNat 16 b)) = BitVec.ofNat 40 (0x05 * 2 ^ 32 + b * 2 ^ 16 + a) := by
  apply BitVec.eq_of_toNat_eq
  rw [encode, joinCommand_toNat]
  simp only [encodeFields, BitVec.toNat_ofNat]
  omega

theorem assembleLineWord_rol {a : Nat} (ha : a ≤ 65535) :
    assembleLineWord ("ROL ".toList ++ Nat.toDigits 10 a) = .ok (some (BitVec.ofNat 40 (0x04 * 2 ^ 32 + a))) := by
  have hline := assembleLine_rol (isDecimal_toDigits a)
  rw [← encode_rol_ofNat ha]
  refine assembleLineWord_of_assembleLine (hline.trans ?_)
  simp [assembleForm, parseOperand_toDigits ha, Except.map]

theorem assembleLineWord_divmod {a b : Nat} (ha : a ≤ 65535) (hb : b ≤ 65535) :
    assembleLineWord ("DIVMOD ".toList ++ Nat.toDigits 10 a ++ ", ".toList ++ Nat.toDigits 10 b) =
      .ok (some (BitVec.ofNat 40 (0x05 * 2 ^ 32 + b * 2 ^ 16 + a))) := by
  have hline := assembleLine_divmod (isDecimal_toDigits a) (isDecimal_toDigits b)
  rw [← encode_divmod_ofNat ha hb, List.append_assoc]
  refine assembleLineWord_of_assembleLine (Eq.trans ?_ (hline.trans ?_))
  · simp
  · simp [assembleForm, parseOperand_toDigits ha, parseOperand_toDigits hb, Except.map]

/-- Settles O6: a decimal operand is read back digit by digit, the lines are cut at the blank and the comma, and the only words
the assembler gives are those of `encode`, which decode. -/
theorem assembledLinesGiveTheirWords : Obligations.AssembledLinesGiveTheirWords := by
  unfold Obligations.AssembledLinesGiveTheirWords
  refine ⟨by decide, by decide, by decide, fun a ha => assembleLineWord_rol ha,
    fun a b ha hb => assembleLineWord_divmod ha hb, fun line w h => ?_⟩
  obtain ⟨i, rfl⟩ := eq_encode_of_assembleLineWord h
  exact ⟨i, decodeWord_encode i⟩

end Sys2Proof.Machine

/-! ## The carry flag commands (40_carry_flag.md R50 to R53) -/

namespace Sys2Proof.Machine

/-! ### What each command does -/

@[simp] theorem exec_clear (s : State) : exec .clear s = .next (respond .ok false 0 0 (writeC false s)) := rfl

@[simp] theorem exec_set (s : State) : exec .set s = .next (respond .ok true 0 0 (writeC true s)) := rfl

@[simp] theorem exec_read (s : State) : exec .read s = .next (respond .ok s.c 0 (zext16 s.c) s) := rfl

/-- R42: an `OK` answer, its word as the rule's sum. -/
theorem respond_ok_eq (cf : Flag) (y1 y0 : Word16) (s : State) :
    respond .ok cf y1 y0 s = { s with responses := s.responses ++ [responseOf 0 cf y1.toNat y0.toNat] } := by
  rw [respond, responseWord_eq_responseOf]
  rfl

/-- R39: below the opcode of `ROL` both operand fields are must-be-zero. -/
theorem decodeWord_eq_error_of_opField_lt_four {w : Word40} (hop : (opField w).toNat < 4)
    (hne : aField w ≠ 0 ∨ bField w ≠ 0) : ∃ e, decodeWord w = .error e := by
  cases hd : decodeWord w with
  | error e => exact ⟨e, rfl⟩
  | ok i =>
    obtain ⟨hb, ha⟩ := mustBeZero_of_decodeWord_eq_ok hd
    obtain hne | hne := hne
    · exact absurd (ha (by omega) (by omega)) hne
    · exact absurd (hb (by omega)) hne

/-- Settles O18: the word is `CLEAR`'s encoding, and `CLEAR` writes 0 to the carry and answers `OK`. -/
theorem clearMeaning : Obligations.ClearMeaning := by
  unfold Obligations.ClearMeaning
  refine ⟨decodeWord_encode .clear, fun s => ?_,
    fun w hop => decodeWord_eq_error_of_opField_lt_four (by simp [hop]), rfl⟩
  rw [exec_clear, respond_ok_eq]
  rfl

/-- Settles O19: the word is `SET`'s encoding, and `SET` writes 1 to the carry and answers `OK`. -/
theorem setMeaning : Obligations.SetMeaning := by
  unfold Obligations.SetMeaning
  refine ⟨decodeWord_encode .set, fun s => ?_,
    fun w hop => decodeWord_eq_error_of_opField_lt_four (by simp [hop]), rfl⟩
  rw [exec_set, respond_ok_eq]
  rfl

/-- Settles O20: the word is `READ`'s encoding, and `READ` only answers `OK`, with the carry in `CF` and in `Y0`. -/
theorem readMeaning : Obligations.ReadMeaning := by
  unfold Obligations.ReadMeaning
  refine ⟨decodeWord_encode .read, fun s => ?_,
    fun w hop => decodeWord_eq_error_of_opField_lt_four (by simp [hop]), rfl⟩
  rw [exec_read, respond_ok_eq, zext16_toNat]
  rfl

/-! ### Their laws (R53) -/

/-- Each of the three commands answers `OK` once, and the divider's registers pass through it unread and unwritten. -/
theorem carryCommand_answersOk_frames_div {i : Instr} (hi : i ∈ [Instr.clear, .set, .read]) (s : State) :
    ∃ t r, exec i s = .next t ∧ t.responses = s.responses ++ [r] ∧ responseOk r = true ∧ t.div = s.div ∧
      ∀ v : DivRegs, exec i { s with div := v } = .next { t with div := v } := by
  obtain rfl | rfl | rfl : i = .clear ∨ i = .set ∨ i = .read := by simpa using hi
  · exact ⟨_, _, exec_clear s, respond_responses .., responseOk_responseWord .., rfl, fun _ => rfl⟩
  · exact ⟨_, _, exec_set s, respond_responses .., responseOk_responseWord .., rfl, fun _ => rfl⟩
  · exact ⟨_, _, exec_read s, respond_responses .., responseOk_responseWord .., rfl, fun _ => rfl⟩

/-- The second `READ` sees the carry that the first one saw. -/
theorem exec_read_twice (s : State) :
    ∃ t u r, exec .read s = .next t ∧ exec .read t = .next u ∧ t.c = s.c ∧ u.responses = s.responses ++ [r, r] := by
  refine ⟨_, _, responseWord .ok s.c 0 (zext16 s.c), exec_read s, exec_read _, respond_c .., ?_⟩
  simp only [respond_responses, respond_c, List.append_assoc, List.cons_append, List.nil_append]

/-- Settles O21: `CLEAR` and `SET` overwrite the carry before anything reads it, and `READ` leaves it. -/
theorem carryCommandLaws : Obligations.CarryCommandLaws := by
  unfold Obligations.CarryCommandLaws
  exact ⟨fun _ hi s => carryCommand_answersOk_frames_div hi s, fun _ _ => ⟨rfl, rfl⟩, exec_read_twice⟩

end Sys2Proof.Machine

/-! ## Rotate left through carry (41_rotate_left.md R54, R55, R57, R59) -/

namespace Sys2Proof.Machine

/-! ### The function `rol16` -/

@[simp] theorem rol16_snd (v : Word16) (c : Flag) : (rol16 v c).2 = v.getLsbD 15 := rfl

theorem rol16_fst_toNat (v : Word16) (c : Flag) : (rol16 v c).1.toNat = (2 * v.toNat + b2u c) % 2 ^ 16 :=
  trunc16_toNat _

/-- R57: what the truncation drops is the outgoing carry, at weight 2^16. -/
theorem rol16_conserves (v : Word16) (c : Flag) :
    2 * v.toNat + b2u c = 2 ^ 16 * b2u (rol16 v c).2 + (rol16 v c).1.toNat := by
  have hc := b2u_le_one c
  have hout : b2u (rol16 v c).2 = v.toNat / 32768 := b2u_carryOut v
  rw [hout, rol16_fst_toNat]
  omega

/-- R54: the new value is `{v[14:0], c}`. -/
theorem rol16_fst_eq_append (v : Word16) (c : Flag) : (rol16 v c).1 = v.extractLsb' 0 15 ++ BitVec.ofBool c := by
  have hc := b2u_le_one c
  apply BitVec.eq_of_toNat_eq
  rw [rol16_fst_toNat, append_toNat, ofBool_toNat, BitVec.extractLsb'_toNat, Nat.shiftRight_zero]
  omega

/-- R57: the shift leaves bit 0 clear, so the flag is put there without a carry. -/
theorem shiftLeft_one_add_b2u_eq_or (v : Word16) (c : Flag) :
    (v.toNat <<< 1) + b2u c = (v.toNat <<< 1) ||| b2u c :=
  Nat.shiftLeft_add_eq_or_of_lt (Nat.lt_succ_of_le (b2u_le_one c)) _

/-- Settles O22: doubling is the shift, and the bits of the sum are those of `v` below bit 15 over the flag. -/
theorem rotateFunction : Obligations.RotateFunction := by
  unfold Obligations.RotateFunction
  intro v c
  refine ⟨rol16_snd v c, ?_, rol16_fst_eq_append v c⟩
  rw [Nat.shiftLeft_eq, Nat.pow_one, Nat.mul_comm, rol16_fst_toNat]

/-- Settles O24: the shifted value is even, so adding the flag sets bit 0, and the sum splits at bit 16 into the outgoing carry
and the new value. -/
theorem rotateAdditionNeverCarries : Obligations.RotateAdditionNeverCarries := by
  unfold Obligations.RotateAdditionNeverCarries
  intro v c
  refine ⟨?_, b2u_le_one c, shiftLeft_one_add_b2u_eq_or v c, ?_, Nat.le_of_lt_succ (rol16 v c).1.isLt⟩
  · rw [Nat.shiftLeft_eq, Nat.pow_one, Nat.mul_mod_left]
  · rw [Nat.shiftLeft_eq, Nat.pow_one, Nat.mul_comm, rol16_conserves, rol16_snd]

/-- Settles O27 by evaluating `rol16` on the two vectors. -/
theorem sourceRotateVectors : Obligations.SourceRotateVectors := by
  unfold Obligations.SourceRotateVectors
  decide

/-! ### The command `ROL` -/

@[simp] theorem exec_rol (a : Word16) (s : State) :
    exec (.rol a) s = .next (respond .ok (rol16 a s.c).2 0 (rol16 a s.c).1 (writeC (rol16 a s.c).2 s)) := rfl

/-- R36: the word of `ROL a` is R55's number. -/
theorem encode_rol (a : Word16) : encode (.rol a) = BitVec.ofNat 40 (0x04 * 2 ^ 32 + a.toNat) := by
  rw [← encode_rol_ofNat (Nat.le_of_lt_succ a.isLt), BitVec.ofNat_toNat, BitVec.setWidth_eq]

/-- R39: only `DIVMOD` has a second operand. -/
theorem decodeWord_eq_error_of_bField_ne_zero {w : Word40} (hop : (opField w).toNat ≠ 5) (hb : bField w ≠ 0) :
    ∃ e, decodeWord w = .error e := by
  cases hd : decodeWord w with
  | error e => exact ⟨e, rfl⟩
  | ok i =>
    obtain ⟨hzero, -⟩ := mustBeZero_of_decodeWord_eq_ok hd
    exact absurd (hzero hop) hb

/-- Settles O23: the word is `ROL a`'s encoding, and `ROL` answers `OK` with `rol16` of the operand and the old carry, whose
flag it writes. -/
theorem rolMeaning : Obligations.RolMeaning := by
  unfold Obligations.RolMeaning
  refine ⟨fun a => decodeWord_eq_ok_iff.mpr (encode_rol a).symm, fun a s => ?_,
    fun w hop => decodeWord_eq_error_of_bField_ne_zero (by simp [hop]), by decide⟩
  rw [exec_rol, respond_ok_eq, rol16_fst_toNat]
  rfl

end Sys2Proof.Machine

/-! ## The divider's algorithm (42_divmod.md R61 to R67, R71 to R75) -/

namespace Sys2Proof.Machine

/-! ### One step of an iteration, on numbers -/

theorem b2u_getLsbD (v : Word16) (i : Nat) : b2u (v.getLsbD i) = v.toNat / 2 ^ i % 2 := by
  simp only [BitVec.getLsbD, Nat.testBit_eq_decide_div_mod_eq, b2u, decide_eq_true_eq]
  split <;> omega

theorem divStepA_conserves (v : DivRegs) :
    2 * v.q.toNat + b2u v.f = 2 ^ 16 * b2u (divStepA v).f + (divStepA v).q.toNat := rol16_conserves v.q v.f

theorem divStepB_conserves (v : DivRegs) :
    2 * v.r.toNat + b2u v.f = 2 ^ 16 * b2u (divStepB v).f + (divStepB v).r.toNat := rol16_conserves v.r v.f

theorem divClose_conserves (v : DivRegs) :
    2 * v.q.toNat + b2u v.f = 2 ^ 16 * b2u (divClose v).f + (divClose v).q.toNat := rol16_conserves v.q v.f

@[simp] theorem divClose_r (v : DivRegs) : (divClose v).r = v.r := rfl

/-- R64: step c takes the divisor away as often as its flag says, once or not at all. -/
theorem divStepC_conserves (d : Word16) (v : DivRegs) :
    b2u (divStepC d v).f * d.toNat + (divStepC d v).r.toNat = v.r.toNat := by
  rw [divStepC_f, divStepC_r]
  cases h : noBorrow v.r d with
  | false => simp
  | true =>
    have hle := noBorrow_eq_true.mp h
    rw [if_pos rfl, BitVec.toNat_sub_of_le hle, b2u_true]
    omega

theorem divStepC_f_eq_decide (d : Word16) (v : DivRegs) : (divStepC d v).f = decide (d.toNat ≤ v.r.toNat) :=
  divStepC_f d v

/-- R64: one subtraction is enough for a remainder below twice the divisor. -/
theorem divStepC_r_lt {d : Word16} {v : DivRegs} (h : v.r.toNat < 2 * d.toNat) : (divStepC d v).r.toNat < d.toNat := by
  have hsum := divStepC_conserves d v
  rw [divStepC_f_eq_decide] at hsum
  by_cases hle : d.toNat ≤ v.r.toNat <;> simp [hle] at hsum <;> omega

/-! ### The dividend's top bits (R73) -/

@[simp] theorem topBits_zero (n : Word16) : topBits n 0 = 0 := Nat.div_eq_of_lt n.isLt

@[simp] theorem topBits_sixteen (n : Word16) : topBits n 16 = n.toNat := Nat.div_one _

theorem topBits_lt (n : Word16) {j : Nat} (hj : j ≤ 16) : topBits n j < 2 ^ j := by
  apply Nat.div_lt_of_lt_mul
  rw [← pow_add, Nat.sub_add_cancel hj]
  exact n.isLt

theorem topBits_succ (n : Word16) {j : Nat} (hj : j < 16) :
    topBits n (j + 1) = 2 * topBits n j + b2u (n.getLsbD (16 - (j + 1))) := by
  have hexp : 16 - j = 16 - (j + 1) + 1 := by omega
  rw [b2u_getLsbD, topBits, topBits, hexp, pow_succ, ← Nat.div_div_eq_div_mul]
  omega

/-- The bits of a dividend shifted left by `j + 1` that stand above the sixteenth are its top `j + 1`. -/
theorem shifted_div_eq_topBits (n : Word16) {j p : Nat} (hj : j < 16) (hp : p < 2 ^ (j + 1)) :
    (2 ^ (j + 1) * n.toNat + p) / 2 ^ 16 = topBits n (j + 1) := by
  have hsplit : 2 ^ 16 = 2 ^ (j + 1) * 2 ^ (16 - (j + 1)) := by rw [← pow_add, Nat.add_sub_cancel' hj]
  rw [hsplit, ← Nat.div_div_eq_div_mul, Nat.mul_add_div (by positivity), Nat.div_eq_of_lt hp, Nat.add_zero, topBits]

/-! ### The invariant of the iterations -/

/-- What the divider's registers `v` hold after `j` iterations for `n` by `d`, when the outcomes of step c so far are the binary
digits of `p`: the dividend's low bits and then `p` stand in `Q` and `F`, its top `j` bits have gone through `R`, and `p` and `R`
are their quotient and remainder. For divisor 0 the remainder has no bound but those bits. -/
structure Divided (n d : Word16) (j p : Nat) (v : DivRegs) : Prop where
  outcomes_lt : p < 2 ^ j
  shifted : 2 ^ 17 * topBits n j + (2 * v.q.toNat + b2u v.f) = 2 ^ (j + 1) * n.toNat + p
  reconstructs : p * d.toNat + v.r.toNat = topBits n j
  remainder_lt : 0 < d.toNat → v.r.toNat < d.toNat

theorem divided_divInit (n d : Word16) : Divided n d 0 0 (divInit n) where
  outcomes_lt := Nat.one_pos
  shifted := by simp [divInit]
  reconstructs := by simp [divInit]
  remainder_lt h := h

section Iteration

variable {n d : Word16} {j p : Nat} {v : DivRegs}

theorem Divided.remainder_le (h : Divided n d j p v) : v.r.toNat ≤ topBits n j :=
  h.reconstructs ▸ Nat.le_add_left ..

theorem Divided.remainder_lt_two_pow (h : Divided n d j p v) (hj : j ≤ 16) : v.r.toNat < 2 ^ j :=
  h.remainder_le.trans_lt (topBits_lt n hj)

/-- Before an iteration the remainder has room for one more bit. -/
theorem Divided.remainder_lt_half (h : Divided n d j p v) (hj : j < 16) : v.r.toNat < 2 ^ 15 :=
  (h.remainder_lt_two_pow hj.le).trans_le (Nat.pow_le_pow_right Nat.two_pos (Nat.le_of_lt_succ hj))

theorem Divided.remainder_eq_mod (h : Divided n d j p v) : v.r.toNat = topBits n j % d.toNat := by
  rw [← h.reconstructs, Nat.mul_comm, Nat.mul_add_mod]
  obtain hd | hd := Nat.eq_zero_or_pos d.toNat
  · rw [hd, Nat.mod_zero]
  · rw [Nat.mod_eq_of_lt (h.remainder_lt hd)]

/-- R62: `Q` and the bit that leaves it, after step a. -/
theorem Divided.stepA_shifted (h : Divided n d j p v) :
    2 ^ 16 * (2 * topBits n j + b2u (divStepA v).f) + (divStepA v).q.toNat = 2 ^ (j + 1) * n.toNat + p := by
  have hA := divStepA_conserves v
  have hs := h.shifted
  omega

/-- R75: step a takes the dividend's next bit. -/
theorem Divided.stepA_f (h : Divided n d j p v) (hj : j < 16) :
    (divStepA v).f = n.getLsbD (16 - (j + 1)) := by
  have hp : p < 2 ^ (j + 1) := h.outcomes_lt.trans (Nat.pow_lt_pow_succ Nat.one_lt_two)
  have htop := shifted_div_eq_topBits n hj hp
  rw [topBits_succ n hj, ← h.stepA_shifted] at htop
  have hq := (divStepA v).q.isLt
  apply b2u_injective
  omega

/-- R73: step b loses no remainder bit. -/
theorem Divided.stepB_f_and_r (h : Divided n d j p v) (hj : j < 16) :
    (divStepB (divStepA v)).f = false ∧
      (divStepB (divStepA v)).r.toNat = 2 * v.r.toNat + b2u (n.getLsbD (16 - (j + 1))) := by
  have hB := divStepB_conserves (divStepA v)
  rw [divStepA_r, h.stepA_f hj] at hB
  have hr := h.remainder_lt_half hj
  have hbit := b2u_le_one (n.getLsbD (16 - (j + 1)))
  have hf : (divStepB (divStepA v)).f = false := b2u_injective (by rw [b2u_false]; omega)
  rw [hf, b2u_false] at hB
  exact ⟨hf, by omega⟩

theorem Divided.stepB_r_lt (h : Divided n d j p v) (hj : j < 16) (hd : 0 < d.toNat) :
    (divStepB (divStepA v)).r.toNat < 2 * d.toNat := by
  obtain ⟨-, hr⟩ := h.stepB_f_and_r hj
  have hlt := h.remainder_lt hd
  have hbit := b2u_le_one (n.getLsbD (16 - (j + 1)))
  omega

/-- R64: quotient and remainder of the top bits, with one bit more of them. -/
theorem Divided.iteration_reconstructs (h : Divided n d j p v) (hj : j < 16) :
    (2 * p + b2u (divIteration d v).f) * d.toNat + (divIteration d v).r.toNat = topBits n (j + 1) := by
  obtain ⟨-, hB⟩ := h.stepB_f_and_r hj
  have hC : b2u (divIteration d v).f * d.toNat + (divIteration d v).r.toNat = _ :=
    divStepC_conserves d (divStepB (divStepA v))
  rw [topBits_succ n hj, ← h.reconstructs, Nat.add_mul, Nat.mul_assoc]
  omega

theorem Divided.iteration (h : Divided n d j p v) (hj : j < 16) :
    Divided n d (j + 1) (2 * p + b2u (divIteration d v).f) (divIteration d v) where
  outcomes_lt := by
    have hp := h.outcomes_lt
    have hf := b2u_le_one (divIteration d v).f
    rw [pow_succ]
    omega
  shifted := by
    have hA := h.stepA_shifted
    have hq : (divIteration d v).q = (divStepA v).q := by simp [divIteration]
    rw [h.stepA_f hj, ← topBits_succ n hj] at hA
    rw [hq, pow_succ' 2 (j + 1), Nat.mul_assoc]
    omega
  reconstructs := h.iteration_reconstructs hj
  remainder_lt hd := divStepC_r_lt (h.stepB_r_lt hj hd)

end Iteration

/-- The outcomes of step c in the first `j` iterations, read as a binary number. -/
def quotientSoFar (n d : Word16) : Nat → Nat
  | 0 => 0
  | j + 1 => 2 * quotientSoFar n d j + b2u (divIterations d (j + 1) (divInit n)).f

theorem divided_divIterations (n d : Word16) {j : Nat} (hj : j ≤ 16) :
    Divided n d j (quotientSoFar n d j) (divIterations d j (divInit n)) := by
  induction j with
  | zero => exact divided_divInit n d
  | succ j ih => exact (ih (by omega)).iteration hj

/-- Later outcomes go below the earlier ones. -/
theorem quotientSoFar_add_div (n d : Word16) (j m : Nat) :
    quotientSoFar n d (j + m) / 2 ^ m = quotientSoFar n d j := by
  induction m with
  | zero => exact Nat.div_one _
  | succ m ih =>
    have hbit := b2u_le_one (divIterations d (j + m + 1) (divInit n)).f
    have hhalf : quotientSoFar n d (j + m + 1) / 2 = quotientSoFar n d (j + m) := by
      rw [quotientSoFar]
      omega
    rw [pow_succ', ← Nat.div_div_eq_div_mul, ← Nat.add_assoc, hhalf, ih]

/-! ### The whole division -/

/-- R65: the closing rotate pushes nothing out, and leaves the sixteen outcomes in `Q`. -/
theorem divRun_f_and_q (n d : Word16) :
    (divRun n d).f = false ∧ (divRun n d).q.toNat = quotientSoFar n d 16 := by
  obtain ⟨hp, hs, -, -⟩ := divided_divIterations n d le_rfl
  have hclose : _ = 2 ^ 16 * b2u (divRun n d).f + (divRun n d).q.toNat :=
    divClose_conserves (divIterations d 16 (divInit n))
  rw [topBits_sixteen] at hs
  have hf : (divRun n d).f = false := b2u_injective (by rw [b2u_false]; omega)
  rw [hf, b2u_false] at hclose
  exact ⟨hf, by omega⟩

@[simp] theorem divRun_f (n d : Word16) : (divRun n d).f = false := (divRun_f_and_q n d).1

@[simp] theorem divRun_q_toNat (n d : Word16) : (divRun n d).q.toNat = quotientSoFar n d 16 := (divRun_f_and_q n d).2

theorem divcore_reconstructs (n d : Word16) :
    (divcore n d).1.toNat * d.toNat + (divcore n d).2.toNat = n.toNat := by
  have h := (divided_divIterations n d le_rfl).reconstructs
  rwa [topBits_sixteen, ← divRun_q_toNat] at h

theorem divcore_snd_lt (n : Word16) {d : Word16} (hd : 0 < d.toNat) : (divcore n d).2.toNat < d.toNat :=
  (divided_divIterations n d le_rfl).remainder_lt hd

/-- Settles O29: the invariant after the sixteenth iteration, where the top bits are the whole dividend. -/
theorem divisionBoundAndReconstruction : Obligations.DivisionBoundAndReconstruction := by
  unfold Obligations.DivisionBoundAndReconstruction
  exact fun n d hd => ⟨divcore_snd_lt n hd, divcore_reconstructs n d⟩

/-- Settles O28: quotient and remainder are the only numbers that meet the bound and the reconstruction. -/
theorem dividerComputesQuotientAndRemainder : Obligations.DividerComputesQuotientAndRemainder := by
  unfold Obligations.DividerComputesQuotientAndRemainder
  intro n d hd
  have hpos := BitVec.toNat_pos_of_ne_zero hd
  have hsum : (divcore n d).2.toNat + d.toNat * (divcore n d).1.toNat = n.toNat := by
    rw [Nat.add_comm, Nat.mul_comm, divcore_reconstructs]
  obtain ⟨hq, hr⟩ := (Nat.div_mod_unique hpos).mpr ⟨hsum, divcore_snd_lt n hpos⟩
  exact ⟨hq.symm, hr.symm⟩

/-- Settles O31: the sixteen outcomes fit `Q`, so the closing rotate has no bit to put into `F`. -/
theorem dividerFlagEndsClear : Obligations.DividerFlagEndsClear := by
  unfold Obligations.DividerFlagEndsClear
  exact divRun_f

/-- Settles O30: the invariant before and after iteration `j`. -/
theorem partialRemainderFitsItsWidth : Obligations.PartialRemainderFitsItsWidth := by
  unfold Obligations.PartialRemainderFitsItsWidth
  intro n d j hj1 hj16
  obtain ⟨i, rfl⟩ := Nat.exists_eq_add_of_le' hj1
  have hold := divided_divIterations n d (j := i) (by omega)
  have hnew := divided_divIterations n d hj16
  obtain ⟨hmidf, hmidr⟩ := hold.stepB_f_and_r hj16
  refine ⟨fun _ => ⟨hnew.remainder_eq_mod, hnew.remainder_le⟩, fun hd => ?_, topBits_lt n hj16,
    hold.remainder_lt_two_pow (by omega), Nat.testBit_lt_two_pow (hold.remainder_lt_half hj16), hmidf, hmidr,
    fun hd => ⟨Nat.le_pred_of_lt (hold.stepB_r_lt hj16 hd), hnew.remainder_lt hd, fun hle => ?_⟩⟩
  · rw [hnew.remainder_eq_mod, hd]
    exact Nat.mod_zero _
  · have hC := divStepC_conserves d (divStepB (divStepA (divIterations d i (divInit n))))
    rw [Nat.add_sub_cancel] at hle
    rw [divStepC_f_eq_decide, decide_eq_true hle, b2u_true, Nat.one_mul] at hC
    exact Nat.eq_sub_of_add_eq' hC

/-- R75: the outcome of iteration `j` is quotient bit `16 - j`. -/
theorem divRun_q_getLsbD (n d : Word16) {j : Nat} (hj : j < 16) :
    (divRun n d).q.getLsbD (16 - (j + 1)) = (divIterations d (j + 1) (divInit n)).f := by
  have hdiv := quotientSoFar_add_div n d (j + 1) (16 - (j + 1))
  have hbit := b2u_le_one (divIterations d (j + 1) (divInit n)).f
  have hlast : quotientSoFar n d (j + 1) = 2 * quotientSoFar n d j + _ := rfl
  rw [Nat.add_sub_cancel' hj, hlast] at hdiv
  apply b2u_injective
  rw [b2u_getLsbD, divRun_q_toNat, hdiv]
  omega

/-- Settles O32: the invariant before iteration `j` for the dividend's bit, and the place of its outcome in the quotient. -/
theorem iterationBitMapping : Obligations.IterationBitMapping := by
  unfold Obligations.IterationBitMapping
  intro n d j hj1 hj16
  obtain ⟨i, rfl⟩ := Nat.exists_eq_add_of_le' hj1
  have hold := divided_divIterations n d (j := i) (by omega)
  obtain ⟨-, hmidr⟩ := hold.stepB_f_and_r hj16
  refine ⟨hold.stepA_f hj16, ?_, (divRun_q_getLsbD n d hj16).symm⟩
  have hbit := b2u_le_one (n.getLsbD (16 - (i + 1)))
  apply b2u_injective
  rw [b2u_getLsbD, Nat.add_sub_cancel, hmidr]
  omega

end Sys2Proof.Machine

/-! ## DIVMOD as a command (42_divmod.md R60, R68 to R70, R76) -/

namespace Sys2Proof.Machine

/-! ### The values of the algorithm (R70, R76) -/

theorem divcore_of_ne_zero (n : Word16) {d : Word16} (hd : d ≠ 0) : divcore n d = (n / d, n % d) := by
  obtain ⟨hq, hr⟩ := dividerComputesQuotientAndRemainder n d hd
  refine Prod.ext (BitVec.eq_of_toNat_eq ?_) (BitVec.eq_of_toNat_eq ?_)
  · rw [hq, BitVec.toNat_udiv]
  · rw [hr, BitVec.toNat_umod]

theorem divcore_zero_left {d : Word16} (hd : d ≠ 0) : divcore 0 d = (0, 0) :=
  (divcore_of_ne_zero 0 hd).trans (Prod.ext BitVec.zero_udiv BitVec.zero_umod)

theorem divcore_one (n : Word16) : divcore n 1 = (n, 0) :=
  (divcore_of_ne_zero n (by decide)).trans (Prod.ext BitVec.udiv_one BitVec.umod_one)

theorem divcore_self {n : Word16} (hn : n ≠ 0) : divcore n n = (1, 0) := by
  rw [divcore_of_ne_zero n hn, BitVec.udiv_self, BitVec.umod_self, if_neg (by simpa using hn)]
  rfl

theorem divcore_of_lt {n d : Word16} (h : n < d) : divcore n d = (0, n) := by
  have hd : d ≠ 0 := fun h0 => BitVec.not_lt_zero (h0 ▸ h)
  exact (divcore_of_ne_zero n hd).trans
    (Prod.ext (BitVec.udiv_eq_zero_iff_eq_zero_or_lt.mpr (.inr h)) (BitVec.umod_eq_of_lt h))

/-- R70: against divisor 0 every comparison of step c succeeds. -/
theorem divIterations_zero_f (n : Word16) (j : Nat) : (divIterations 0 (j + 1) (divInit n)).f = true :=
  (divStepC_f 0 _).trans (noBorrow_eq_true.mpr (Nat.zero_le _))

theorem quotientSoFar_zero (n : Word16) (j : Nat) : quotientSoFar n 0 j + 1 = 2 ^ j := by
  induction j with
  | zero => rfl
  | succ j ih =>
    rw [quotientSoFar, divIterations_zero_f, b2u_true, pow_succ]
    omega

theorem divcore_zero (n : Word16) : divcore n 0 = (0xFFFF, n) := by
  refine Prod.ext (BitVec.eq_of_toNat_eq ?_) (BitVec.eq_of_toNat_eq ?_)
  · exact (divRun_q_toNat n 0).trans (Nat.succ.inj (quotientSoFar_zero n 16))
  · simpa using divcore_reconstructs n 0

/-! ### What the command does -/

theorem divisionTraps_zero {s : State} (h : s.params.div0Policy = .fault) : divisionTraps 0 s = true :=
  divisionTraps_eq_true.mpr ⟨rfl, h⟩

theorem divisionTraps_eq_false {b : Word16} {s : State} (h : b ≠ 0 ∨ s.params.div0Policy = .raw) :
    divisionTraps b s = false := by
  rw [← Bool.not_eq_true, divisionTraps_eq_true]
  rintro ⟨hb, hp⟩
  simp [hb, hp] at h

theorem exec_divmod_of_traps (a : Word16) {b : Word16} {s : State} (h : divisionTraps b s = true) :
    exec (.divmod a b) s = .next (raiseException .divisionByZero s) := if_pos h

theorem exec_divmod_of_runs (a : Word16) {b : Word16} {s : State} (h : divisionTraps b s = false) :
    exec (.divmod a b) s = .next (finishDivision (divRun a b) s) := by
  simp [exec, execDivmod, h]

/-- R82: taking an exception, its response as R42's sum. -/
theorem raiseException_eq (e : Exception) (s : State) :
    raiseException e s =
      { s with responses := s.responses ++ [responseOf (statusCode (exceptionStatus e)).toNat s.c 0 0] } := by
  rw [raiseException, respond, responseWord_eq_responseOf]
  rfl

/-- R69: under the policy `fault` a zero divisor gets the error response, and no state is written. -/
theorem exec_divmod_zero_of_fault (a : Word16) {s : State} (h : s.params.div0Policy = .fault) :
    exec (.divmod a 0) s = .next { s with responses := s.responses ++ [responseOf 1 s.c 0 0] } := by
  rw [exec_divmod_of_traps a (divisionTraps_zero h), raiseException_eq]
  rfl

theorem responseOf_divByZero (c : Flag) :
    responseOf 1 c 0 0 = BitVec.ofNat 40 (0x1000000000 + b2u c * 2 ^ 32) := by
  simp [responseOf, responseNumber]

/-- Settles O35: the error response's number is that of status 1 and the carry, with both operand fields zero. -/
theorem divisionByZeroFaultPolicy : Obligations.DivisionByZeroFaultPolicy := by
  unfold Obligations.DivisionByZeroFaultPolicy
  refine ⟨rfl, fun a s h => ?_⟩
  rw [exec_divmod_zero_of_fault a h, responseOf_divByZero]

/-- R70, R60: under the policy `raw` a zero divisor gets an `OK` with 0xFFFF and the dividend. -/
theorem exec_divmod_zero_of_raw (n : Word16) {s : State} (h : s.params.div0Policy = .raw) :
    ∃ t r, exec (.divmod n 0) s = .next t ∧ t.responses = s.responses ++ [r] ∧
      rspStatus r = 0 ∧ rspY0 r = 0xFFFF ∧ rspY1 r = n := by
  have hv := divcore_zero n
  exact ⟨_, _, exec_divmod_of_runs n (divisionTraps_eq_false (.inr h)), finishDivision_responses .., rspStatus_responseWord ..,
    (rspY0_responseWord ..).trans (congrArg Prod.fst hv), (rspY1_responseWord ..).trans (congrArg Prod.snd hv)⟩

/-- Settles O33: for `d` >= 1 each row is R71 at those operands, and the two rows for divisor 0 are R69 and R70. -/
theorem divisionCornerCases : Obligations.DivisionCornerCases := by
  unfold Obligations.DivisionCornerCases
  exact ⟨fun _ => divcore_zero_left, divcore_one, fun _ => divcore_self, fun _ _ => divcore_of_lt,
    divcore_one _, divcore_self (by decide), divcore_self (by decide),
    (divcore_of_ne_zero 65535 (by decide)).trans rfl, (divcore_of_ne_zero 65535 (by decide)).trans rfl,
    divcore_of_lt (by decide), fun n _ => exec_divmod_zero_of_fault n, fun n _ => exec_divmod_zero_of_raw n⟩

/-- Settles O37: the final `F` is clear, so that a shared carry ends clear; an exception writes no carry; and neither the check nor
the divider looks at the carry. -/
theorem divmodAndTheCarryFlag : Obligations.DivmodAndTheCarryFlag := by
  unfold Obligations.DivmodAndTheCarryFlag
  refine ⟨rfl, fun a b s => ?_⟩
  have hsame (x : Flag) : divisionTraps b { s with c := x } = divisionTraps b s := rfl
  cases ht : divisionTraps b s with
  | true =>
    refine ⟨_, _, exec_divmod_of_traps a ht, raiseException_responses _ _, rspCF_responseWord .., fun _ => rfl, ?_,
      fun _ => rfl, fun x => ⟨_, _, exec_divmod_of_traps a ((hsame x).trans ht), raiseException_responses _ _, ?_⟩⟩
    · simp [responseOk_responseWord, exceptionStatus]
    · simp only [rspStatus_responseWord, rspY1_responseWord, rspY0_responseWord, and_self]
  | false =>
    refine ⟨_, _, exec_divmod_of_runs a ht, finishDivision_responses _ _, ?_, ?_, ?_, ?_,
      fun x => ⟨_, _, exec_divmod_of_runs a ((hsame x).trans ht), finishDivision_responses _ _, ?_⟩⟩
    · rw [rspCF_responseWord, finishDivision_c]
    · intro hshared
      simp [hshared]
    · intro hshared _
      rw [finishDivision_c, hshared, if_pos rfl, divRun_f]
    · simp [responseOk_responseWord]
    · simp only [rspStatus_responseWord, rspY1_responseWord, rspY0_responseWord, and_self]

end Sys2Proof.Machine

/-! ## The steps of a division that runs step by step (42_divmod.md R77, R78) -/

namespace Sys2Proof.Machine

/-! ### Rows of R78's table -/

section Rows

variable {s : State}

theorem dividerTick_iter_a (hp : s.phase = .iter .a) (hk : s.div.k < 16) :
    dividerTick s = .next { s with div := divStepA s.div, phase := .iter .b } := by
  simp only [dividerTick, hp, hk, if_true]

theorem dividerTick_iter_b (hp : s.phase = .iter .b) (hk : s.div.k < 16) :
    dividerTick s = .next { s with div := divStepB s.div, phase := .iter .c } := by
  simp only [dividerTick, hp, hk, if_true]

theorem dividerTick_iter_c {w : Word40} (hp : s.phase = .iter .c) (hk : s.div.k < 16) (hw : s.outstanding = some w) :
    dividerTick s = .next { s with
      div := divStepC (operandB w) s.div
      phase := if s.div.k + 1 < 16 then .iter .a else .close } := by
  simp only [dividerTick, hp, hk, hw, if_true, divStepC_k]

theorem dividerTick_close (hp : s.phase = .close) :
    dividerTick s = .next { s with div := divClose s.div, phase := .done } := by
  simp only [dividerTick, hp]

end Rows

/-! ### A division on its way -/

/-- R77, R78: the phase after `j` of the 49 internal steps. -/
def microPhase (j : Nat) : Phase :=
  if j = 49 then .done else if j = 48 then .close
  else .iter (if j % 3 = 0 then .a else if j % 3 = 1 then .b else .c)

/-- R77, R78: the step counter after `j` of the 49 internal steps. -/
def microCount (j : Nat) : Nat := if j = 49 then 17 else j / 3

section Residues

variable {j : Nat} (hj : j < 48)
include hj

theorem microPhase_a (hx : j % 3 = 0) : microPhase j = .iter .a := by
  rw [microPhase, if_neg (by omega), if_neg hj.ne, if_pos hx]

theorem microPhase_b (hx : j % 3 = 1) : microPhase j = .iter .b := by
  rw [microPhase, if_neg (by omega), if_neg hj.ne, if_neg (by omega), if_pos hx]

theorem microPhase_c (hx : j % 3 = 2) : microPhase j = .iter .c := by
  rw [microPhase, if_neg (by omega), if_neg hj.ne, if_neg (by omega), if_neg (by omega)]

end Residues

theorem microCount_of_lt {j : Nat} (hj : j < 49) : microCount j = j / 3 := if_neg hj.ne

/-- The state `t` is `j` internal steps into the division of the word `w`, begun in `s` with no host action to follow: the divider
is where the table says, and from outside nothing has happened. -/
structure MidDivision (w : Word40) (s : State) (j : Nat) (t : State) : Prop where
  inputs : t.inputs = []
  outstanding : t.outstanding = some w
  c : t.c = s.c
  responses : t.responses = s.responses
  count : t.div.k = microCount j
  phase : t.phase = microPhase j

theorem MidDivision.of_beginDivision {w : Word40} {s : State} (h : s.inputs.tail = []) :
    MidDivision w s 0 (beginDivision w (dropInput s)) :=
  ⟨h, rfl, rfl, rfl, rfl, rfl⟩

section Steps

variable {w : Word40} {s t : State} {j : Nat}

/-- An iteration's step changes only the divider's registers and its phase. -/
theorem MidDivision.advance {v : DivRegs} {ph : Phase} (h : MidDivision w s j t) (hk : v.k = microCount (j + 1))
    (hph : ph = microPhase (j + 1)) : MidDivision w s (j + 1) { t with div := v, phase := ph } :=
  ⟨h.inputs, h.outstanding, h.c, h.responses, hk, hph⟩

theorem MidDivision.step_next (h : MidDivision w s j t) (hj : j < 49) :
    ∃ u, step t = .next u ∧ MidDivision w s (j + 1) u := by
  rw [step_no_input h.inputs]
  obtain rfl | hiter := Nat.eq_or_lt_of_le (Nat.le_of_lt_succ hj)
  · exact ⟨_, dividerTick_close h.phase, h.advance rfl rfl⟩
  have hk : t.div.k = j / 3 := h.count.trans (microCount_of_lt hj)
  have hk' : microCount (j + 1) = (j + 1) / 3 := microCount_of_lt (by omega)
  have hlt : t.div.k < 16 := by omega
  obtain hx | hx | hx : j % 3 = 0 ∨ j % 3 = 1 ∨ j % 3 = 2 := by omega
  · exact ⟨_, dividerTick_iter_a (h.phase.trans (microPhase_a hiter hx)) hlt,
      h.advance (by rw [divStepA_k]; omega) (microPhase_b (by omega) (by omega)).symm⟩
  · exact ⟨_, dividerTick_iter_b (h.phase.trans (microPhase_b hiter hx)) hlt,
      h.advance (by rw [divStepB_k]; omega) (microPhase_c (by omega) (by omega)).symm⟩
  · refine ⟨_, dividerTick_iter_c (h.phase.trans (microPhase_c hiter hx)) hlt h.outstanding,
      h.advance (by rw [divStepC_k]; omega) ?_⟩
    obtain hlast | hmore : j = 47 ∨ j < 47 := by omega
    · rw [if_neg (by omega), hlast]
      rfl
    · rw [if_pos (by omega), microPhase_a (by omega) (by omega)]

theorem MidDivision.run (h : MidDivision w s 0 t) (hj : j ≤ 49) :
    ∃ u, runSteps j t = .next u ∧ MidDivision w s j u := by
  induction j with
  | zero => exact ⟨t, rfl, h⟩
  | succ j ih =>
    obtain ⟨u, hrun, hu⟩ := ih (by omega)
    obtain ⟨x, hstep, hx⟩ := hu.step_next hj
    exact ⟨x, by rw [runSteps_add 1 hrun, runSteps_succ_of_next 0 hstep, runSteps_zero], hx⟩

end Steps

/-! ### Accepting a `DIVMOD` (R32, R69, R78) -/

section Accept

variable {s : State} {a b : Word16} {rest : List HostAction}

theorem internalSteps_divmod :
    internalSteps (encode (.divmod a b)) s = if divisionTraps b s then 0 else 49 := by
  simp only [internalSteps, decodeWord_encode]

theorem step_command_idle {i : Instr} (hp : s.phase = .idle) (hin : s.inputs = .command (encode i) :: rest) :
    step s = if runsStepped i (dropInput s) then .next (beginDivision (encode i) (dropInput s))
      else exec i (dropInput s) := by
  simp only [step, hin, acceptCommand_idle (s := dropInput s) _ hp, decodeWord_encode]

theorem step_begins_division (hp : s.phase = .idle) (hform : s.params.divmodForm = .stepped)
    (hruns : divisionTraps b s = false) (hin : s.inputs = .command (encode (.divmod a b)) :: rest) :
    step s = .next (beginDivision (encode (.divmod a b)) (dropInput s)) := by
  have hstepped : runsStepped (.divmod a b) (dropInput s) = true :=
    Bool.and_eq_true_iff.mpr ⟨beq_iff_eq.mpr hform, congrArg not hruns⟩
  rw [step_command_idle hp hin, if_pos hstepped]

theorem step_refuses_division (hp : s.phase = .idle) (htraps : divisionTraps b s = true)
    (hin : s.inputs = .command (encode (.divmod a b)) :: rest) :
    step s = .next (raiseException .divisionByZero (dropInput s)) := by
  have hatomic : runsStepped (.divmod a b) (dropInput s) = false :=
    Bool.and_eq_false_iff.mpr (.inr (congrArg not htraps))
  rw [step_command_idle hp hin, hatomic]
  exact exec_divmod_of_traps a htraps

end Accept

/-- Settles O40: each internal step goes from one place of the table to the next, and leaves what the host sees. -/
theorem divisionTakesFortyNineSteps : Obligations.DivisionTakesFortyNineSteps := by
  unfold Obligations.DivisionTakesFortyNineSteps
  refine ⟨fun s a b hp hform hin hb => ?_, fun s a hp hfault hin => ?_⟩
  · have hruns := divisionTraps_eq_false hb
    refine ⟨by rw [internalSteps_divmod, hruns]; rfl, fun j hj => ?_⟩
    have hbegin := MidDivision.of_beginDivision (w := encode (.divmod a b)) (congrArg List.tail hin)
    obtain ⟨t, hrun, ht⟩ := hbegin.run hj
    rw [Nat.add_comm, runSteps_succ_of_next j (step_begins_division hp hform hruns hin)]
    exact ⟨t, hrun, ht.c, ht.responses, ht.count, ht.phase⟩
  · have htraps := divisionTraps_zero hfault
    exact ⟨by rw [internalSteps_divmod, htraps]; rfl, _, step_refuses_division hp htraps hin, hp, rfl⟩

end Sys2Proof.Machine

/-! ## The two exceptions (60_exceptions.md R81, R82) -/

namespace Sys2Proof.Machine

/-! ### The illegal words -/

/-- R81: the words of no row, on the numbers of their fields. -/
theorem decodeWord_eq_error_iff_fields (w : Word40) :
    (∃ e, decodeWord w = .error e) ↔
      ((opField w).toNat = 0 ∨ 6 ≤ (opField w).toNat) ∨
      ((1 ≤ (opField w).toNat ∧ (opField w).toNat ≤ 3) ∧ ((aField w).toNat ≠ 0 ∨ (bField w).toNat ≠ 0)) ∨
      ((opField w).toNat = 4 ∧ (bField w).toNat ≠ 0) := by
  simp only [decodeWord_eq_error_iff, ne_eq, decodeWord_eq_ok_iff_fields, encodeFields, ← BitVec.toNat_inj,
    BitVec.ofNat_eq_ofNat, BitVec.toNat_ofNat, and_true]
  omega

/-! ### What an idle block answers -/

/-- A command that runs is answered once, and never with the status of an illegal word. -/
theorem exec_answers_not_illegalCommand {i : Instr} {s t : State} (h : exec i s = .next t) :
    ∃ st cf y1 y0, st ≠ .illegalCommand ∧ t.responses = s.responses ++ [responseWord st cf y1 y0] := by
  obtain ⟨-, he⟩ | ⟨-, he⟩ | ⟨-, he⟩ | ⟨a, -, he⟩ | ⟨a, b, -, -, he⟩ | ⟨a, b, -, -, he⟩ := exec_cases i s
  all_goals obtain rfl := Host.Outcome.next.inj (he.symm.trans h)
  case inr.inr.inr.inr.inl => exact ⟨.divByZero, _, _, _, nofun, raiseException_responses _ _⟩
  case inr.inr.inr.inr.inr => exact ⟨.ok, _, _, _, nofun, finishDivision_responses _ _⟩
  all_goals exact ⟨.ok, _, _, _, nofun, respond_responses ..⟩

theorem rspStatus_responseWord_eq_two_iff (st : Status) (cf : Flag) (y1 y0 : Word16) :
    rspStatus (responseWord st cf y1 y0) = 2 ↔ st = .illegalCommand := by
  rw [rspStatus_responseWord]
  cases st <;> decide

theorem dropInput_eq {s : State} {x : HostAction} {rest : List HostAction} (hin : s.inputs = x :: rest) :
    dropInput s = { s with inputs := rest } := by
  rw [dropInput, hin, List.tail_cons]

section IdleBlock

variable {s : State} {rest : List HostAction} (hp : s.phase = .idle)
include hp

theorem step_illegal_word {w : Word40} {e : DecodeError} (hin : s.inputs = .command w :: rest)
    (hd : decodeWord w = .error e) : step s = .next (raiseException .illegalCommand (dropInput s)) := by
  simp only [step, hin, acceptCommand_idle (s := dropInput s) w hp, hd]

theorem step_legal_word_status_ne_two {i : Instr} {t : State} {r : Word40} (hin : s.inputs = .command (encode i) :: rest)
    (h : step s = .next t) (hr : t.responses = s.responses ++ [r]) : rspStatus r ≠ 2 := by
  rw [step_command_idle hp hin] at h
  split at h
  · obtain rfl := Host.Outcome.next.inj h
    simp at hr
  · obtain ⟨st, cf, y1, y0, hst, hanswer⟩ := exec_answers_not_illegalCommand h
    obtain rfl : responseWord st cf y1 y0 = r := by simpa using hanswer.symm.trans hr
    rwa [ne_eq, rspStatus_responseWord_eq_two_iff]

end IdleBlock

/-- Settles O43: the illegal words are those of no row, an illegal word is answered with `raiseException`'s status 2, and no
command that runs gives that status. -/
theorem illegalWordsRaiseIllegalCommand : Obligations.IllegalWordsRaiseIllegalCommand := by
  unfold Obligations.IllegalWordsRaiseIllegalCommand
  refine fun w => ⟨?_, fun s rest hp hin => ⟨fun ⟨e, hd⟩ => ?_, fun ⟨t, r, hstep, hr, hstatus⟩ => ?_⟩⟩
  · have hfields := decodeWord_eq_error_iff_fields w
    rwa [opField_toNat, bField_toNat, aField_toNat] at hfields
  · exact ⟨_, _, step_illegal_word hp hin hd, raiseException_responses _ _,
      (rspStatus_responseWord_eq_two_iff ..).mpr rfl⟩
  · cases hd : decodeWord w with
    | error e => exact ⟨e, rfl⟩
    | ok i =>
      obtain rfl := decodeWord_eq_ok_iff.mp hd
      exact absurd hstatus (step_legal_word_status_ne_two hp hin hstep hr)

/-! ### The error response (R82) -/

/-- R82: the next state of an idle block that raises `e` on the host's command. -/
theorem raiseException_dropInput {s : State} {x : HostAction} {rest : List HostAction} (e : Exception)
    (hin : s.inputs = x :: rest) :
    raiseException e (dropInput s) =
      { s with
        inputs := rest
        responses := s.responses ++ [responseOf (statusCode (exceptionStatus e)).toNat s.c 0 0] } := by
  rw [raiseException_eq, dropInput_eq hin]

theorem responseOk_exception (e : Exception) (c : Flag) :
    responseOk (responseOf (statusCode (exceptionStatus e)).toNat c 0 0) = false :=
  calc responseOk (responseOf (statusCode (exceptionStatus e)).toNat c 0 0)
      = responseOk (responseWord (exceptionStatus e) c 0 0) :=
        congrArg responseOk (responseWord_eq_responseOf (exceptionStatus e) c 0 0).symm
    _ = (exceptionStatus e == .ok) := responseOk_responseWord ..
    _ = false := by cases e <;> rfl

/-- Settles O44: both exceptions end in `raiseException`, which appends the error response and writes nothing else. -/
theorem errorResponseChangesNothing : Obligations.ErrorResponseChangesNothing := by
  unfold Obligations.ErrorResponseChangesNothing
  refine fun s w rest hp hin => ⟨fun ⟨e, hd⟩ => ?_, fun a hd hfault => ?_,
    responseOk_exception .divisionByZero s.c, responseOk_exception .illegalCommand s.c⟩
  · rw [step_illegal_word hp hin hd, raiseException_dropInput _ hin]
    rfl
  · obtain rfl := decodeWord_eq_ok_iff.mp hd
    rw [step_refuses_division hp (divisionTraps_zero hfault) hin, raiseException_dropInput _ hin]
    rfl

end Sys2Proof.Machine

/-! ## Reset (70_reset_and_hazards.md R95, R97) -/

namespace Sys2Proof.Machine

/-- R26: where `carry_reset` gives a value, no free value is read. -/
theorem carryAfterReset_of_some {p : Config.Params} {v : Flag} (h : p.carryReset = some v) (n : Nat) :
    carryAfterReset p n = v := by
  simp only [carryAfterReset, h]

/-- R95: a reset is never refused and waits for no phase. -/
theorem step_reset {s : State} {rest : List HostAction} (hin : s.inputs = .reset :: rest) :
    step s = .next (resetEvent { s with inputs := rest }) := by
  simp only [step, hin, dropInput_eq hin]

/-- Settles O15: the reset step is `resetEvent` in every phase, which writes `carry_reset` to `C`, discards the divider and leaves the
other fields. -/
theorem resetEventEffect : Obligations.ResetEventEffect := by
  unfold Obligations.ResetEventEffect
  intro s rest hin
  refine ⟨_, step_reset hin, fun v hv => ?_, resetEvent_phase _, resetEvent_outstanding _,
    resetEvent_responses _, resetEvent_inputs _, resetEvent_params _⟩
  rw [resetEvent_c]
  exact carryAfterReset_of_some hv s.draws

/-- R8, R97: the default `carry_reset` is 0. -/
theorem reset_c : State.reset.c = false :=
  carryAfterReset_of_some (p := Config.defaultParams) rfl 0

/-- Settles O17: `State.powerOn` takes its `C` from `carry_reset` as the reset event does, with an idle divider. -/
theorem stateAfterReset : Obligations.StateAfterReset := by
  unfold Obligations.StateAfterReset
  refine ⟨fun p v hv => ?_, fun p => ⟨powerOn_phase p, powerOn_outstanding p, powerOn_params p⟩, rfl, reset_c⟩
  rw [powerOn_c]
  exact carryAfterReset_of_some hv 0

end Sys2Proof.Machine

/-! ## The decoder: the rule's chain of tests, and one word for each command (30_encoding.md R38 to R40, R48) -/

namespace Sys2Proof

open Machine

/-- Settles O4: decoding and encoding are inverse on fields, and a word is the join of its fields. -/
theorem decodeEncodeAgree : Obligations.DecodeEncodeAgree := by
  unfold Obligations.DecodeEncodeAgree
  exact fun _ _ => decodeWord_eq_ok_iff

/-- R40 on the numbers of the fields. -/
theorem decodeFields_toOption (f : CommandFields) :
    (decodeFields f).toOption =
      if f.op.toNat = 1 ∧ f.a.toNat = 0 ∧ f.b.toNat = 0 then some .clear
      else if f.op.toNat = 2 ∧ f.a.toNat = 0 ∧ f.b.toNat = 0 then some .set
      else if f.op.toNat = 3 ∧ f.a.toNat = 0 ∧ f.b.toNat = 0 then some .read
      else if f.op.toNat = 4 ∧ f.b.toNat = 0 then some (.rol (BitVec.ofNat 16 f.a.toNat))
      else if f.op.toNat = 5 then some (.divmod (BitVec.ofNat 16 f.a.toNat) (BitVec.ofNat 16 f.b.toNat))
      else none := by
  simp only [decodeFields, ← BitVec.toNat_inj, BitVec.ofNat_eq_ofNat, BitVec.toNat_ofNat, Nat.reducePow, Nat.reduceMod,
    Nat.zero_mod, apply_ite Except.toOption, BitVec.ofNat_toNat, BitVec.setWidth_eq]
  rfl

/-- Settles O3: the decoder tests the fields as bit vectors, the rule tests them as numbers. -/
theorem decodeIsTotalByTheRule : Obligations.DecodeIsTotalByTheRule := by
  unfold Obligations.DecodeIsTotalByTheRule
  intro w
  have h := decodeFields_toOption (splitCommand w)
  rwa [splitCommand, opField_toNat, bField_toNat, aField_toNat] at h

/-- Settles O5 by running the decoder on the eight words. -/
theorem vectorWordsDecode : Obligations.VectorWordsDecode := by
  unfold Obligations.VectorWordsDecode
  decide

end Sys2Proof

/-! ## One step of the host and the block (70_reset_and_hazards.md R96, R99; 60_exceptions.md R93) -/

namespace Sys2Proof.Machine

/-! ### The step for each host action -/

section Actions

variable {s : State} {w : Word40} {rest : List HostAction}

theorem step_command (hin : s.inputs = .command w :: rest) : step s = acceptCommand w { s with inputs := rest } := by
  simp only [step, hin, dropInput_eq hin]

theorem step_aborted (hin : s.inputs = .aborted w :: rest) : step s = acceptAborted { s with inputs := rest } := by
  simp only [step, hin, dropInput_eq hin]

theorem acceptAborted_idle (hp : s.phase = .idle) : acceptAborted s = .next (resetEvent s) := by
  simp only [acceptAborted, hp]

theorem dividerTick_idle (hp : s.phase = .idle) : dividerTick s = .next s := by
  simp only [dividerTick, hp]

theorem dividerTick_done (hp : s.phase = .done) : dividerTick s = .next (finishDivision s.div s) := by
  simp only [dividerTick, hp]

end Actions

end Sys2Proof.Machine

/-! ## The machine's invariant (42_divmod.md R78, 10_state.md R22, 30_encoding.md R44) -/

namespace Sys2Proof.Machine

/-! ### The invariant, phase by phase -/

section Phases

variable {s : State}

theorem phaseConsistent_idle_iff (hp : s.phase = .idle) : phaseConsistent s ↔ s.outstanding = none := by
  cases hw : s.outstanding <;> simp [phaseConsistent, hp, hw]

theorem phaseConsistent_iter_a_iff (hp : s.phase = .iter .a) :
    phaseConsistent s ↔ ∃ w, s.outstanding = some w ∧ divisionOutstanding s w ∧ s.div.k < 16 ∧
      s.div = divIterations (operandB w) s.div.k (divInit (operandA w)) := by
  cases hw : s.outstanding <;> simp [phaseConsistent, hp, hw]

theorem phaseConsistent_iter_b_iff (hp : s.phase = .iter .b) :
    phaseConsistent s ↔ ∃ w, s.outstanding = some w ∧ divisionOutstanding s w ∧ s.div.k < 16 ∧
      s.div = divStepA (divIterations (operandB w) s.div.k (divInit (operandA w))) := by
  cases hw : s.outstanding <;> simp [phaseConsistent, hp, hw]

theorem phaseConsistent_iter_c_iff (hp : s.phase = .iter .c) :
    phaseConsistent s ↔ ∃ w, s.outstanding = some w ∧ divisionOutstanding s w ∧ s.div.k < 16 ∧
      s.div = divStepB (divStepA (divIterations (operandB w) s.div.k (divInit (operandA w)))) := by
  cases hw : s.outstanding <;> simp [phaseConsistent, hp, hw]

theorem phaseConsistent_close_iff (hp : s.phase = .close) :
    phaseConsistent s ↔ ∃ w, s.outstanding = some w ∧ divisionOutstanding s w ∧
      s.div = divIterations (operandB w) 16 (divInit (operandA w)) := by
  cases hw : s.outstanding <;> simp [phaseConsistent, hp, hw]

theorem phaseConsistent_done_iff (hp : s.phase = .done) :
    phaseConsistent s ↔ ∃ w, s.outstanding = some w ∧ divisionOutstanding s w ∧
      s.div = divRun (operandA w) (operandB w) := by
  cases hw : s.outstanding <;> simp [phaseConsistent, hp, hw]

end Phases

/-- The invariant's part on the divider: its phase and its counter (R22, R78). -/
def DividerInv (s : State) : Prop := phaseConsistent s ∧ s.div.k ≤ 17

theorem dividerInv_of_idle {s : State} (hp : s.phase = .idle) (ho : s.outstanding = none) (hk : s.div.k ≤ 17) :
    DividerInv s := ⟨(phaseConsistent_idle_iff hp).mpr ho, hk⟩

theorem discardDivider_dividerInv (s : State) : DividerInv (discardDivider s) :=
  dividerInv_of_idle rfl rfl (idleDivRegs_k_le _)

theorem finishDivision_dividerInv (v : DivRegs) (s : State) : DividerInv (finishDivision v s) :=
  discardDivider_dividerInv _

/-! ### Every step keeps it -/

/-- Step c ends an iteration: the next one follows, or after the sixteenth the closing rotate. -/
theorem divStepC_dividerInv {s : State} {w : Word40} (hw : s.outstanding = some w) (ho : divisionOutstanding s w)
    (hk : s.div.k < 16)
    (hv : divStepC (operandB w) s.div = divIterations (operandB w) (s.div.k + 1) (divInit (operandA w))) :
    DividerInv { s with
      div := divStepC (operandB w) s.div
      phase := if s.div.k + 1 < 16 then .iter .a else .close } := by
  refine ⟨?_, (divStepC_k ..).trans_le (by omega)⟩
  split
  next hmore =>
    refine (phaseConsistent_iter_a_iff rfl).mpr ⟨w, hw, ho, (divStepC_k ..).trans_lt hmore, hv.trans ?_⟩
    rw [divStepC_k]
  next hlast =>
    obtain hlast : s.div.k + 1 = 16 := by omega
    exact (phaseConsistent_close_iff rfl).mpr ⟨w, hw, ho, by rwa [hlast] at hv⟩

/-- Each row of R78's table leads from the registers of its phase to those of the next. -/
theorem dividerTick_keeps_dividerInv {s t : State} (hs : DividerInv s) (h : dividerTick s = .next t) : DividerInv t := by
  have hphase := hs.1
  obtain ⟨-, rfl⟩ | ⟨hp, hk, rfl⟩ | ⟨hp, hk, rfl⟩ | ⟨w, hp, hk, hw, rfl⟩ | ⟨hp, rfl⟩ | ⟨-, rfl⟩ := dividerTick_cases h
  · exact hs
  · obtain ⟨w, hw, ho, -, hv⟩ := (phaseConsistent_iter_a_iff hp).mp hphase
    exact ⟨(phaseConsistent_iter_b_iff rfl).mpr ⟨w, hw, ho, hk, congrArg divStepA hv⟩, hk.le.trans (by decide)⟩
  · obtain ⟨w, hw, ho, -, hv⟩ := (phaseConsistent_iter_b_iff hp).mp hphase
    exact ⟨(phaseConsistent_iter_c_iff rfl).mpr ⟨w, hw, ho, hk, congrArg divStepB hv⟩, hk.le.trans (by decide)⟩
  · obtain ⟨w', hw', ho, -, hv⟩ := (phaseConsistent_iter_c_iff hp).mp hphase
    obtain rfl : w = w' := Option.some.inj (hw.symm.trans hw')
    exact divStepC_dividerInv hw ho hk (congrArg (divStepC _) hv)
  · obtain ⟨w, hw, ho, hv⟩ := (phaseConsistent_close_iff hp).mp hphase
    exact ⟨(phaseConsistent_done_iff rfl).mpr ⟨w, hw, ho, congrArg divClose hv⟩, le_rfl⟩
  · exact finishDivision_dividerInv _ _

/-- A command leaves the divider as it was, or idle with discarded registers. -/
theorem exec_keeps_dividerInv {i : Instr} {s t : State} (hs : DividerInv s) (h : exec i s = .next t) : DividerInv t := by
  obtain ⟨-, he⟩ | ⟨-, he⟩ | ⟨-, he⟩ | ⟨a, -, he⟩ | ⟨a, b, -, -, he⟩ | ⟨a, b, -, -, he⟩ := exec_cases i s
  all_goals obtain rfl := Host.Outcome.next.inj (he.symm.trans h)
  case inr.inr.inr.inr.inr => exact finishDivision_dividerInv _ _
  all_goals exact hs

/-- An accepted DIVMOD that runs stands at the start of its first iteration (R61). -/
theorem beginDivision_dividerInv {w : Word40} {a b : Word16} {s : State} (hd : decodeWord w = .ok (.divmod a b))
    (hruns : divisionTraps b s = false) : DividerInv (beginDivision w s) := by
  obtain ⟨-, rfl, rfl⟩ := decodeWord_eq_ok_iff_fields.mp hd
  exact ⟨(phaseConsistent_iter_a_iff rfl).mpr ⟨w, rfl, ⟨hd, hruns⟩, Nat.succ_pos _, rfl⟩, Nat.zero_le _⟩

theorem step_keeps_dividerInv {s t : State} (hs : DividerInv s) (h : step s = .next t) : DividerInv t := by
  have hs' : DividerInv (dropInput s) := hs
  obtain (⟨-, ht⟩ | ⟨rest, -, ht⟩) | ⟨rest, -, rfl⟩ | ⟨w, rest, -, -, rfl⟩ | ⟨w, rest, -, -, hc⟩ := step_cases h
  · exact dividerTick_keeps_dividerInv hs ht
  · exact dividerTick_keeps_dividerInv hs' ht
  · exact discardDivider_dividerInv _
  · exact discardDivider_dividerInv _
  · obtain ⟨e, -, rfl⟩ | ⟨a, b, hd, -, hruns, rfl⟩ | ⟨i, -, -, he⟩ := hc
    · exact hs'
    · exact beginDivision_dividerInv hd hruns
    · exact exec_keeps_dividerInv hs' he

/-- Settles O51: the divider's part step by step, and the responses by what a step can append to the trace. -/
theorem stepKeepsTheMachineInvariant : Obligations.StepKeepsTheMachineInvariant := by
  unfold Obligations.StepKeepsTheMachineInvariant
  rintro s t ⟨hphase, hk, hresponses⟩ h
  obtain ⟨hphase', hk'⟩ := step_keeps_dividerInv ⟨hphase, hk⟩ h
  exact ⟨hphase', hk', (step_respondsAtMostOnce h).keeps_possible hresponses⟩

/-- Settles O52: after power-on the divider is idle with its counter at 0, and nothing has been answered. -/
theorem machineInvariantAfterReset : Obligations.MachineInvariantAfterReset := by
  unfold Obligations.MachineInvariantAfterReset
  exact fun p => ⟨(phaseConsistent_idle_iff rfl).mpr rfl, Nat.zero_le _, rfl⟩

/-! ### Under the invariant the block always goes on (R94) -/

/-- No fault of an internal step is left to a consistent state. -/
theorem dividerTick_next_of_phaseConsistent {s : State} (hs : phaseConsistent s) : ∃ t, dividerTick s = .next t := by
  cases hp : s.phase with
  | idle => exact ⟨s, dividerTick_idle hp⟩
  | iter x =>
    cases x with
    | a =>
      obtain ⟨w, -, -, hk, -⟩ := (phaseConsistent_iter_a_iff hp).mp hs
      exact ⟨_, dividerTick_iter_a hp hk⟩
    | b =>
      obtain ⟨w, -, -, hk, -⟩ := (phaseConsistent_iter_b_iff hp).mp hs
      exact ⟨_, dividerTick_iter_b hp hk⟩
    | c =>
      obtain ⟨w, hw, -, hk, -⟩ := (phaseConsistent_iter_c_iff hp).mp hs
      exact ⟨_, dividerTick_iter_c hp hk hw⟩
  | close => exact ⟨_, dividerTick_close hp⟩
  | done => exact ⟨_, dividerTick_done hp⟩

/-- R94: every command of an idle block goes on to a next state. -/
theorem exec_next (i : Instr) (s : State) : ∃ t, exec i s = .next t := by
  obtain ⟨-, he⟩ | ⟨-, he⟩ | ⟨-, he⟩ | ⟨a, -, he⟩ | ⟨a, b, -, -, he⟩ | ⟨a, b, -, -, he⟩ := exec_cases i s
  all_goals exact ⟨_, he⟩

/-- An idle block accepts every word. -/
theorem acceptCommand_next_of_idle (w : Word40) {s : State} (hp : s.phase = .idle) :
    ∃ t, acceptCommand w s = .next t := by
  rw [acceptCommand_idle w hp]
  split
  · exact ⟨_, rfl⟩
  · split
    · exact ⟨_, rfl⟩
    · exact exec_next _ s

/-- Settles O53: a host action on a busy block is waited for, a reset or an overlap, and an idle block accepts them all. -/
theorem blockNeverGetsStuck : Obligations.BlockNeverGetsStuck := by
  unfold Obligations.BlockNeverGetsStuck
  rintro s ⟨hphase, -, -⟩
  cases hin : s.inputs with
  | nil =>
    rw [step_no_input hin]
    exact .inl (dividerTick_next_of_phaseConsistent hphase)
  | cons x rest =>
    cases x with
    | wait =>
      rw [step_wait hin]
      exact .inl (dividerTick_next_of_phaseConsistent (s := dropInput s) hphase)
    | reset => exact .inl ⟨_, step_reset hin⟩
    | command w =>
      rw [step_command hin]
      by_cases hp : s.phase = .idle
      · exact .inl (acceptCommand_next_of_idle w hp)
      · exact .inr ⟨acceptCommand_busy w hp, hp, w, rest, .inl rfl⟩
    | aborted w =>
      rw [step_aborted hin]
      by_cases hp : s.phase = .idle
      · exact .inl ⟨_, acceptAborted_idle hp⟩
      · exact .inr ⟨acceptAborted_busy hp, hp, w, rest, .inr rfl⟩

end Sys2Proof.Machine

/-! ## The assembler: operands, comments and case (30_encoding.md R47) -/

namespace Sys2Proof.Machine

/-! ### Operands in both bases -/

theorem parseOperand_of_parseNumber {cs : List Char} {n : Nat} (h : parseNumber cs = some n) :
    parseOperand cs = if n ≤ 65535 then .ok (BitVec.ofNat 16 n) else .error .operandRange := by
  simp only [parseOperand, h, operandInRange, decide_eq_true_eq]

/-- The digits above 9 are read in upper case. -/
theorem digitValue_sixteen_toUpper_digitChar : ∀ d < 16, digitValue 16 d.digitChar.toUpper = some d := by decide

theorem parseNumber_hex (n : Nat) :
    parseNumber ("0x".toList ++ (Nat.toDigits 16 n).map Char.toUpper) = some n :=
  calc parseNumber ("0x".toList ++ (Nat.toDigits 16 n).map Char.toUpper)
      = digitsValue 16 ((Nat.toDigits 16 n).map Char.toUpper) := rfl
    _ = digitsFrom 16 0 ((Nat.toDigits 16 n).map Char.toUpper) :=
        if_neg (by simp [Nat.toDigits_ne_nil])
    _ = some n := digitsFrom_map_toDigits (by decide) digitValue_sixteen_toUpper_digitChar n

/-- Settles O7: in either base the digits of `n` are read back as `n`, and the operand's range is checked on that. -/
theorem assemblerReadsOperandNumbers : Obligations.AssemblerReadsOperandNumbers := by
  unfold Obligations.AssemblerReadsOperandNumbers
  exact fun n => ⟨parseOperand_of_parseNumber (parseNumber_toDigits n), parseOperand_of_parseNumber (parseNumber_hex n)⟩

/-! ### Comments -/

theorem stripComment_append_comment (line rest : List Char) : stripComment (line ++ ';' :: rest) = stripComment line := by
  rw [stripComment, List.takeWhile_append, List.takeWhile_cons_of_neg (by decide), List.append_nil]
  split
  next hlen => exact ((List.takeWhile_prefix _).eq_of_length hlen).symm
  next => rfl

theorem stripComment_append {m : List Char} (hm : ∀ ch ∈ m, ch ≠ ';') (cs : List Char) :
    stripComment (m ++ cs) = m ++ stripComment cs :=
  List.takeWhile_append_of_pos fun ch hch => by simpa using hm ch hch

/-- The assembler sees nothing of a comment. -/
theorem assembleLine_congr {l l' : List Char} (h : stripComment l = stripComment l') : assembleLine l = assembleLine l' := by
  rw [assembleLine, h, ← assembleLine]

/-! ### The mnemonic -/

/-- Blanks are trimmed after the text's last word only, so never inside its first one. -/
theorem trimBlanks_append {m : List Char} (hm : m ≠ []) (hblank : ∀ ch ∈ m, isBlank ch = false) (cs : List Char) :
    trimBlanks (m ++ cs) = m ++ cs.rdropWhile isBlank := by
  have hdrop {l : List Char} (hl : ∀ ch ∈ l, isBlank ch = false) : l.dropWhile isBlank = l :=
    List.dropWhile_eq_self_iff.mpr fun _ => by simp [hl]
  have hrev : m.reverse.dropWhile isBlank = m.reverse := hdrop (by simpa using hblank)
  rw [trimBlanks, List.dropWhile_append, hdrop hblank, if_neg (by simpa using hm), List.reverse_append,
    List.dropWhile_append, hrev, List.rdropWhile]
  split
  next hnil => simp [List.isEmpty_iff.mp hnil]
  next => simp

/-- The text of a line from its mnemonic's end on, cut at the comment and without the blanks before that. -/
def restOfLine (tail : List Char) : List Char := (' ' :: stripComment tail).rdropWhile isBlank

/-- A mnemonic ends where the rest of its line begins: that is empty, or begins with a blank. -/
theorem takeWhile_dropWhile_restOfLine {m : List Char} (hblank : ∀ ch ∈ m, isBlank ch = false) (tail : List Char) :
    (m ++ restOfLine tail).takeWhile (!isBlank ·) = m ∧ (m ++ restOfLine tail).dropWhile (!isBlank ·) = restOfLine tail := by
  have hm : ∀ ch ∈ m, (!isBlank ch) = true := by simpa using hblank
  rw [List.takeWhile_append_of_pos hm, List.dropWhile_append_of_pos hm]
  obtain hnil | ⟨cs, hcons⟩ : restOfLine tail = [] ∨ ∃ cs, restOfLine tail = ' ' :: cs := by
    obtain ⟨blanks, hrest⟩ : restOfLine tail <+: ' ' :: stripComment tail := List.rdropWhile_prefix _ _
    cases hx : restOfLine tail with
    | nil => exact .inl rfl
    | cons ch cs =>
      rw [hx, List.cons_append, List.cons.injEq] at hrest
      exact .inr ⟨cs, by rw [hrest.1]⟩
  · simp [hnil]
  · simp [hcons, isBlank]

/-- A line that begins with a word of letters and a blank is read as that word in upper case and the operands after it. -/
theorem assembleLine_mnemonic {m : List Char} (hm : m ≠ []) (hletters : m.all Char.isAlpha = true) (tail : List Char) :
    assembleLine (m ++ ' ' :: tail) =
      (assembleForm (m.map Char.toUpper) (operandTexts (restOfLine tail))).map some := by
  have halphanum : ∀ ch ∈ m, ch.isAlphanum = true :=
    fun ch hch => by rw [Char.isAlphanum, List.all_eq_true.mp hletters ch hch, Bool.true_or]
  have hblank : ∀ ch ∈ m, isBlank ch = false := fun ch hch => isBlank_of_isAlphanum (halphanum ch hch)
  have hcomment : stripComment (m ++ ' ' :: tail) = m ++ ' ' :: stripComment tail :=
    stripComment_append (fun ch hch => ne_of_isAlphanum (halphanum ch hch) (by decide)) _
  have htext : trimBlanks (m ++ ' ' :: stripComment tail) = m ++ restOfLine tail := trimBlanks_append hm hblank _
  obtain ⟨htake, hdrop⟩ := takeWhile_dropWhile_restOfLine hblank tail
  have hne : (m ++ restOfLine tail).isEmpty = false := by simpa using fun h => absurd h hm
  simp only [assembleLine, hcomment, htext, htake, hdrop, hne]
  cases assembleForm (m.map Char.toUpper) (operandTexts (restOfLine tail)) <;> rfl

/-- Settles O8: a comment is cut before anything is read, and of a mnemonic only its upper case is looked up. -/
theorem assemblerIgnoresCommentsAndCase : Obligations.AssemblerIgnoresCommentsAndCase := by
  unfold Obligations.AssemblerIgnoresCommentsAndCase
  refine ⟨fun line rest => assembleLine_congr (stripComment_append_comment line rest), fun m m' tail hup hm hm' => ?_⟩
  by_cases hnil : m = []
  · have hnil' : m' = [] := by simpa [hnil] using hup.symm
    rw [hnil, hnil']
  · have hnil' : m' ≠ [] := fun h => hnil (by simpa [h] using hup)
    rw [assembleLine_mnemonic hnil hm, assembleLine_mnemonic hnil' hm', hup]

end Sys2Proof.Machine

/-! ## The response word (30_encoding.md R42, R43) -/

namespace Sys2Proof.Machine

theorem statusOfCode_eq_some_iff (code : BitVec 4) (st : Status) : statusOfCode code = some st ↔ code = statusCode st := by
  revert code
  cases st <;> decide

theorem hostReads_responseWord (st : Status) (cf : Flag) (y1 y0 : Word16) :
    hostReads (responseWord st cf y1 y0) = some ⟨st, cf, y1, y0⟩ := by
  simp [hostReads, (statusOfCode_eq_some_iff _ st).mpr rfl]

/-- R42: a word is given by its five fields. -/
theorem eq_of_responseFields {w w' : Word40} (hstatus : rspStatus w = rspStatus w')
    (hreserved : rspReserved w = rspReserved w') (hcf : rspCF w = rspCF w') (hy1 : rspY1 w = rspY1 w') (hy0 : rspY0 w = rspY0 w') : w = w' := by
  apply BitVec.eq_of_toNat_eq
  have h1 := congrArg BitVec.toNat hstatus
  have h2 := congrArg BitVec.toNat hreserved
  have h3 := congrArg b2u hcf
  have h4 := congrArg BitVec.toNat hy1
  have h5 := congrArg BitVec.toNat hy0
  rw [rspStatus_toNat, rspStatus_toNat] at h1
  rw [rspReserved_toNat, rspReserved_toNat] at h2
  rw [b2u_rspCF, b2u_rspCF] at h3
  rw [rspY1_toNat, rspY1_toNat] at h4
  rw [rspY0_toNat, rspY0_toNat] at h5
  omega

theorem eq_responseWord_of_hostReads {w : Word40} {h : HostResponse} (hr : hostReads w = some h) :
    w = responseWord h.status h.cf h.y1 h.y0 := by
  unfold hostReads at hr
  split at hr
  next hreserved =>
    obtain ⟨st, hst, rfl⟩ := Option.map_eq_some_iff.mp hr
    have hstatus := (statusOfCode_eq_some_iff _ _).mp hst
    apply eq_of_responseFields <;> simp [hstatus, hreserved]
  next => cases hr

/-- Settles O9: the word's number is the sum, each field is read back from its place, and the five fields give the word. -/
theorem responseWordLayout : Obligations.ResponseWordLayout := by
  unfold Obligations.ResponseWordLayout
  exact ⟨fun st cf y1 y0 => ⟨responseWord_toNat st cf y1 y0, hostReads_responseWord st cf y1 y0⟩,
    fun w h => eq_responseWord_of_hostReads⟩

end Sys2Proof.Machine

/-! ## Rotating the 17 bits of flag and value (41_rotate_left.md R58) -/

namespace Sys2Proof.Machine

/-- `{c, v}` as one value of 17 bits (R58). -/
def withFlag (p : Word16 × Flag) : BitVec 17 := BitVec.ofBool p.2 ++ p.1

theorem withFlag_toNat (p : Word16 × Flag) : (withFlag p).toNat = b2u p.2 * 2 ^ 16 + p.1.toNat := by
  rw [withFlag, append_toNat, ofBool_toNat]

theorem withFlag_injective : Function.Injective withFlag := by
  rintro ⟨v, c⟩ ⟨v', c'⟩ h
  have hnum := congrArg BitVec.toNat h
  simp only [withFlag_toNat] at hnum
  have hv := v.isLt
  have hv' := v'.isLt
  exact Prod.ext (BitVec.eq_of_toNat_eq (by simp only; omega)) (b2u_injective (by simp only; omega))

/-- R58: `rol16` puts the flag below the value, which is a rotation of both by one place. -/
theorem withFlag_rol16 (v : Word16) (c : Flag) : withFlag (rol16 v c) = (withFlag (v, c)).rotateLeft 1 := by
  have hsum := rol16_conserves v c
  have hc := b2u_le_one c
  have hv := v.isLt
  have hx : (withFlag (v, c)).toNat = b2u c * 2 ^ 16 + v.toNat := withFlag_toNat _
  have hhigh : (withFlag (v, c)).toNat <<< 1 % 2 ^ 17 = 2 ^ 1 * v.toNat := by
    rw [hx, Nat.shiftLeft_eq]
    omega
  have hlow : (withFlag (v, c)).toNat >>> 16 = b2u c := by
    rw [hx, Nat.shiftRight_eq_div_pow]
    omega
  apply BitVec.eq_of_toNat_eq
  calc (withFlag (rol16 v c)).toNat = 2 ^ 1 * v.toNat + b2u c := by rw [withFlag_toNat]; omega
    _ = 2 ^ 1 * v.toNat ||| b2u c := Nat.two_pow_add_eq_or_of_lt (Nat.lt_succ_of_le hc) _
    _ = ((withFlag (v, c)).rotateLeft 1).toNat := by rw [BitVec.toNat_rotateLeft, ← hhigh, ← hlow]

/-! Rotations to the left add up: by no place, and by one place more. -/

theorem rotateLeft_zero (x : BitVec 17) : x.rotateLeft 0 = x := by
  apply BitVec.eq_of_getElem_eq
  intro i hi
  simp [BitVec.getElem_rotateLeft]

theorem rotateLeft_rotateLeft_one (x : BitVec 17) (j : Nat) : (x.rotateLeft j).rotateLeft 1 = x.rotateLeft (j + 1) := by
  apply BitVec.eq_of_getElem_eq
  intro i hi
  simp only [BitVec.getElem_rotateLeft]
  split_ifs <;> congr 1 <;> omega

theorem withFlag_rolIterate (p : Word16 × Flag) (j : Nat) : withFlag (rolIterate j p) = (withFlag p).rotateLeft j := by
  induction j with
  | zero => exact (rotateLeft_zero _).symm
  | succ j ih => rw [rolIterate, withFlag_rol16, Prod.mk.eta, ih, rotateLeft_rotateLeft_one]

/-- Settles O25: after 17 rotations by one place each of the 17 bits is where it was. -/
theorem seventeenRotationsRestore : Obligations.SeventeenRotationsRestore := by
  unfold Obligations.SeventeenRotationsRestore
  refine fun v c => ⟨withFlag_rol16 v c, withFlag_injective ?_⟩
  rw [withFlag_rolIterate, ← BitVec.rotateLeft_mod_eq_rotateLeft, Nat.mod_self, rotateLeft_zero]

end Sys2Proof.Machine

/-! ## DIVMOD's next state (42_divmod.md R60, R68, R70; 10_state.md R23) -/

namespace Sys2Proof.Machine

/-- R60, R68: the end of a division as one update of the state. -/
theorem finishDivision_eq (v : DivRegs) (s : State) :
    finishDivision v s = { s with
      c := if s.params.divmodSharesCarry then v.f else s.c
      div := idleDivRegs s.draws
      phase := .idle
      outstanding := none
      responses := s.responses ++
        [responseOf 0 (if s.params.divmodSharesCarry then v.f else s.c) v.r.toNat v.q.toNat]
      draws := s.draws + 1 } := by
  simp only [finishDivision, respond_ok_eq]
  split <;> rfl

/-- A DIVMOD that raises no exception, its response and next state from what the algorithm computes. -/
theorem exec_divmod_eq (a : Word16) {b : Word16} {s : State} (h : divisionTraps b s = false) :
    exec (.divmod a b) s = .next { s with
      c := if s.params.divmodSharesCarry then false else s.c
      div := idleDivRegs s.draws
      phase := .idle
      outstanding := none
      responses := s.responses ++ [responseOf 0 (if s.params.divmodSharesCarry then false else s.c)
        (divcore a b).2.toNat (divcore a b).1.toNat]
      draws := s.draws + 1 } := by
  rw [exec_divmod_of_runs a h, finishDivision_eq, divRun_f]
  rfl

/-- Settles O34: what the divider computes for a divisor that is not zero. -/
theorem divmodQuotientAndRemainder : Obligations.DivmodQuotientAndRemainder := by
  unfold Obligations.DivmodQuotientAndRemainder
  intro a b s hb
  obtain ⟨hq, hr⟩ := dividerComputesQuotientAndRemainder a b hb
  refine ⟨_, idleDivRegs_k_le s.draws, ?_⟩
  rw [exec_divmod_eq a (divisionTraps_eq_false (.inl hb)), hq, hr]

/-- Settles O36: the same next state as for every divisor, with what the algorithm computes for divisor 0. -/
theorem divisionByZeroRawPolicy : Obligations.DivisionByZeroRawPolicy := by
  unfold Obligations.DivisionByZeroRawPolicy
  refine ⟨divcore_zero, fun n j hj _ => ?_, fun a s hraw => ⟨_, idleDivRegs_k_le s.draws, ?_⟩⟩
  · obtain ⟨i, rfl⟩ := Nat.exists_eq_add_of_le' hj
    exact divIterations_zero_f n i
  · rw [exec_divmod_eq a (divisionTraps_eq_false (.inr hraw)), divcore_zero]
    rfl

/-- What a DIVMOD answers, from its operands and whether it raises the exception. -/
theorem exec_divmod_answer (a b : Word16) (s : State) :
    ∃ t cf, exec (.divmod a b) s = .next t ∧ t.responses = s.responses ++
      [if divisionTraps b s then responseWord .divByZero cf 0 0
        else responseWord .ok cf (divcore a b).2 (divcore a b).1] := by
  cases h : divisionTraps b s with
  | true => exact ⟨_, _, exec_divmod_of_traps a h, raiseException_responses ..⟩
  | false => exact ⟨_, _, exec_divmod_of_runs a h, finishDivision_responses ..⟩

/-- Settles O38: of the state only the policy decides whether the exception is raised, and neither answer reads the rest. -/
theorem divmodForgetsHistory : Obligations.DivmodForgetsHistory := by
  unfold Obligations.DivmodForgetsHistory
  intro a b s s' hpolicy
  obtain ⟨t, cf, ht, hr⟩ := exec_divmod_answer a b s
  obtain ⟨t', cf', ht', hr'⟩ := exec_divmod_answer a b s'
  have htraps : divisionTraps b s' = divisionTraps b s := by rw [divisionTraps, divisionTraps, hpolicy]
  rw [htraps] at hr'
  refine ⟨t, t', _, _, ht, ht', hr, hr', ?_⟩
  split <;> simp only [rspStatus_responseWord, rspY1_responseWord, rspY0_responseWord, and_self]

end Sys2Proof.Machine

/-! ## One step, by the host's action and the divider's phase (70_reset_and_hazards.md, 42_divmod.md R78) -/

namespace Sys2Proof.Machine

/-- Settles O12: a word that decodes is accepted, and only a DIVMOD in the stepped form is not run whole. -/
theorem stepRunsTheDecodedCommand : Obligations.StepRunsTheDecodedCommand := by
  unfold Obligations.StepRunsTheDecodedCommand
  intro s w rest i hp hin hd hwhole
  obtain rfl := decodeWord_eq_ok_iff.mp hd
  have hnot : runsStepped i (dropInput s) ≠ true := by
    intro hruns
    obtain ⟨a, b, hi, hform, htraps⟩ := runsStepped_eq_true hruns
    obtain hatomic | hzero := hwhole a b hi
    · exact absurd (hform.symm.trans hatomic) (by decide)
    · exact absurd (htraps.symm.trans (divisionTraps_eq_true.mpr hzero)) (by decide)
  rw [step_command_idle hp hin, if_neg hnot, dropInput_eq hin]

/-- Settles O13: both ways of issuing a command ask first whether the divider is idle. -/
theorem busyBlockRefusesCommands : Obligations.BusyBlockRefusesCommands := by
  unfold Obligations.BusyBlockRefusesCommands
  rintro s w rest hp (hin | hin)
  · exact (step_command hin).trans (acceptCommand_busy w hp)
  · exact (step_aborted hin).trans (acceptAborted_busy hp)

/-- Settles O14: an internal step of an idle divider does nothing. -/
theorem idleBlockHoldsItsState : Obligations.IdleBlockHoldsItsState := by
  unfold Obligations.IdleBlockHoldsItsState
  refine fun s hp => ⟨fun hin => ?_, fun rest hin => ?_⟩
  · exact (step_no_input hin).trans (dividerTick_idle hp)
  · rw [step_wait hin, dropInput_eq hin]
    exact dividerTick_idle hp

/-- Settles O16: a command that reset catches has the effect of the reset alone, which is the same in every phase. -/
theorem resetAbortsTheCommand : Obligations.ResetAbortsTheCommand := by
  unfold Obligations.ResetAbortsTheCommand
  have hreset (s : State) (v : Flag) (hv : s.params.carryReset = some v) : (resetEvent s).c = v :=
    carryAfterReset_of_some hv s.draws
  refine ⟨fun s w rest hp hin => ?_, fun s w rest _ _ hin => ?_⟩
  · have hstep : step s = .next (resetEvent { s with inputs := rest }) := (step_aborted hin).trans (acceptAborted_idle hp)
    have hplain : step { s with inputs := .reset :: rest } = .next (resetEvent { s with inputs := rest }) := step_reset rfl
    exact ⟨hstep.trans hplain.symm, _, hstep, hreset _, rfl, rfl, rfl⟩
  · exact ⟨_, step_reset hin, hreset _, rfl, rfl, rfl⟩

/-! ### The rows of R78 -/

/-- R64: step c on numbers. -/
theorem divStepC_eq (d : Word16) (v : DivRegs) :
    divStepC d v = ⟨v.q, BitVec.ofNat 16 (if d.toNat ≤ v.r.toNat then v.r.toNat - d.toNat else v.r.toNat),
      decide (d.toNat ≤ v.r.toNat), v.k + 1⟩ := by
  by_cases hle : d.toNat ≤ v.r.toNat
  · have hsub : BitVec.ofNat 16 (v.r.toNat - d.toNat) = v.r - d := by
      rw [← BitVec.toNat_sub_of_le hle, BitVec.ofNat_toNat, BitVec.setWidth_eq]
    simp only [divStepC, noBorrow, hle, decide_true, if_true, hsub]
  · simp only [divStepC, noBorrow, hle, decide_false, if_false, Bool.false_eq_true, BitVec.ofNat_toNat, BitVec.setWidth_eq]

/-- Settles O39: the accepted command's first state, and each phase's row. -/
theorem microStepTable : Obligations.MicroStepTable := by
  unfold Obligations.MicroStepTable
  refine ⟨fun s rest a b hp hform hb hin => ?_, fun s hin => ?_⟩
  · rw [step_begins_division hp hform (divisionTraps_eq_false hb) hin, dropInput_eq hin, beginDivision, operandA, encode,
      aField_joinCommand]
    rfl
  · rw [step_no_input hin]
    refine ⟨dividerTick_iter_a, dividerTick_iter_b, fun w hp hk hw => ?_, dividerTick_close,
      fun hp => ⟨idleDivRegs s.draws, ?_⟩⟩
    · rw [dividerTick_iter_c hp hk hw, divStepC_eq]
      rfl
    · rw [dividerTick_done hp, finishDivision_eq]

end Sys2Proof.Machine

/-! ## What every step keeps (00_scope.md R8, 10_state.md R19, 60_exceptions.md R83, R85) -/

namespace Sys2Proof.Machine

/-! ### The parameters -/

theorem exec_keeps_params {i : Instr} {s t : State} (h : exec i s = .next t) : t.params = s.params := by
  obtain ⟨-, he⟩ | ⟨-, he⟩ | ⟨-, he⟩ | ⟨a, -, he⟩ | ⟨a, b, -, -, he⟩ | ⟨a, b, -, -, he⟩ := exec_cases i s
  all_goals obtain rfl := Host.Outcome.next.inj (he.symm.trans h)
  case inr.inr.inr.inr.inr => exact finishDivision_params _ _
  all_goals rfl

theorem dividerTick_keeps_params {s t : State} (h : dividerTick s = .next t) : t.params = s.params := by
  obtain ⟨-, rfl⟩ | ⟨-, -, rfl⟩ | ⟨-, -, rfl⟩ | ⟨w, -, -, -, rfl⟩ | ⟨-, rfl⟩ | ⟨-, rfl⟩ := dividerTick_cases h
  case inr.inr.inr.inr.inr => exact finishDivision_params _ _
  all_goals rfl

/-- Settles O48: no row of the step writes `params`. -/
theorem parametersAreFixed : Obligations.ParametersAreFixed := by
  unfold Obligations.ParametersAreFixed
  intro s t h
  obtain (⟨-, ht⟩ | ⟨rest, -, ht⟩) | ⟨rest, -, rfl⟩ | ⟨w, rest, -, -, rfl⟩ | ⟨w, rest, -, -, hc⟩ := step_cases h
  · exact dividerTick_keeps_params ht
  · exact dividerTick_keeps_params (s := dropInput s) ht
  · rfl
  · rfl
  · obtain ⟨e, -, rfl⟩ | ⟨a, b, -, -, -, rfl⟩ | ⟨i, -, -, he⟩ := hc
    · rfl
    · rfl
    · exact exec_keeps_params (s := dropInput s) he

/-! ### The carry (R19) -/

/-- Of the commands only CLEAR, SET, ROL and a DIVMOD that shares the carry change it. -/
theorem exec_changes_carry {i : Instr} {s t : State} (h : exec i s = .next t) (hc : t.c ≠ s.c) :
    (i = .clear ∧ t.c = false) ∨ (i = .set ∧ t.c = true) ∨ (∃ a, i = .rol a ∧ t.c = a.getLsbD 15) ∨
      (∃ a b r, i = .divmod a b ∧ s.params.divmodSharesCarry = true ∧
        t.responses = s.responses ++ [r] ∧ responseOk r = true ∧ t.c = false) := by
  obtain ⟨hi, he⟩ | ⟨hi, he⟩ | ⟨-, he⟩ | ⟨a, hi, he⟩ | ⟨a, b, -, -, he⟩ | ⟨a, b, hi, -, he⟩ := exec_cases i s
  all_goals obtain rfl := Host.Outcome.next.inj (he.symm.trans h)
  · exact .inl ⟨hi, rfl⟩
  · exact .inr (.inl ⟨hi, rfl⟩)
  · exact absurd rfl hc
  · exact .inr (.inr (.inl ⟨a, hi, rfl⟩))
  · exact absurd rfl hc
  · have hshares : s.params.divmodSharesCarry = true := by
      by_contra hnot
      exact hc (by rw [finishDivision_c, if_neg hnot])
    refine .inr (.inr (.inr ⟨a, b, _, hi, hshares, finishDivision_responses _ _, responseOk_responseWord .., ?_⟩))
    rw [finishDivision_c, if_pos hshares, divRun_f]

/-- Of the internal steps only the last one changes the carry, where it is shared. -/
theorem dividerTick_changes_carry {s t : State} (h : dividerTick s = .next t) (hc : t.c ≠ s.c) :
    s.phase = .done ∧ s.params.divmodSharesCarry = true ∧ t.c = s.div.f ∧
      ∃ r, t.responses = s.responses ++ [r] ∧ responseOk r = true := by
  obtain ⟨-, rfl⟩ | ⟨-, -, rfl⟩ | ⟨-, -, rfl⟩ | ⟨w, -, -, -, rfl⟩ | ⟨-, rfl⟩ | ⟨hp, rfl⟩ := dividerTick_cases h
  case inr.inr.inr.inr.inr =>
    have hshares : s.params.divmodSharesCarry = true := by
      by_contra hnot
      exact hc (by rw [finishDivision_c, if_neg hnot])
    exact ⟨hp, hshares, by rw [finishDivision_c, if_pos hshares], _, finishDivision_responses _ _,
      responseOk_responseWord ..⟩
  all_goals exact absurd rfl hc

/-- Settles O47: the rows of the step that write the carry are those of the rule. -/
theorem onlyTheListedEventsWriteCarry : Obligations.OnlyTheListedEventsWriteCarry := by
  unfold Obligations.OnlyTheListedEventsWriteCarry
  intro s t h hc
  have hreset (v : Flag) (hv : s.params.carryReset = some v) : (resetEvent (dropInput s)).c = v :=
    carryAfterReset_of_some hv s.draws
  obtain (⟨-, ht⟩ | ⟨rest, -, ht⟩) | ⟨rest, hin, rfl⟩ | ⟨w, rest, hin, -, rfl⟩ | ⟨w, rest, hin, hp, hcommand⟩ := step_cases h
  · exact .inr (.inr (dividerTick_changes_carry ht hc))
  · exact .inr (.inr (dividerTick_changes_carry (s := dropInput s) ht hc))
  · exact .inr (.inl ⟨.inl ⟨rest, hin⟩, hreset⟩)
  · exact .inr (.inl ⟨.inr ⟨w, rest, hin⟩, hreset⟩)
  · obtain ⟨e, -, rfl⟩ | ⟨a, b, -, -, -, rfl⟩ | ⟨i, hd, -, he⟩ := hcommand
    · exact absurd rfl hc
    · exact absurd rfl hc
    · refine .inl ⟨w, rest, hin, hp, ?_⟩
      obtain ⟨rfl, hv⟩ | ⟨rfl, hv⟩ | ⟨a, rfl, hv⟩ | ⟨a, b, r, rfl, hshares, hr, hok, hv⟩ :=
        exec_changes_carry (s := dropInput s) he hc
      · exact .inl ⟨hd, hv⟩
      · exact .inr (.inl ⟨hd, hv⟩)
      · exact .inr (.inr (.inl ⟨a, hd, hv⟩))
      · exact .inr (.inr (.inr ⟨a, b, r, hd, hshares, hr, hok, hv⟩))

/-! ### Exceptions (R83) -/

theorem exec_answersOk_or_raises {i : Instr} {s t : State} (h : exec i s = .next t) :
    (∃ cf y1 y0, t.responses = s.responses ++ [responseWord .ok cf y1 y0]) ∨ ∃ e, t = raiseException e s := by
  obtain ⟨-, he⟩ | ⟨-, he⟩ | ⟨-, he⟩ | ⟨a, -, he⟩ | ⟨a, b, -, -, he⟩ | ⟨a, b, -, -, he⟩ := exec_cases i s
  all_goals obtain rfl := Host.Outcome.next.inj (he.symm.trans h)
  case inr.inr.inr.inr.inl => exact .inr ⟨_, rfl⟩
  case inr.inr.inr.inr.inr => exact .inl ⟨_, _, _, finishDivision_responses _ _⟩
  all_goals exact .inl ⟨_, _, _, respond_responses ..⟩

theorem dividerTick_answersOk {s t : State} (h : dividerTick s = .next t) :
    t.responses = s.responses ∨ ∃ cf y1 y0, t.responses = s.responses ++ [responseWord .ok cf y1 y0] := by
  obtain ⟨-, rfl⟩ | ⟨-, -, rfl⟩ | ⟨-, -, rfl⟩ | ⟨w, -, -, -, rfl⟩ | ⟨-, rfl⟩ | ⟨-, rfl⟩ := dividerTick_cases h
  case inr.inr.inr.inr.inr => exact .inr ⟨_, _, _, finishDivision_responses _ _⟩
  all_goals exact .inl rfl

/-- A step answers nothing, answers `OK`, or does no more than raise an exception. -/
theorem step_answersOk_or_raises {s t : State} (h : step s = .next t) :
    (t.responses = s.responses ∨ ∃ cf y1 y0, t.responses = s.responses ++ [responseWord .ok cf y1 y0]) ∨
      ∃ e, t = raiseException e (dropInput s) := by
  obtain (⟨-, ht⟩ | ⟨rest, -, ht⟩) | ⟨rest, -, rfl⟩ | ⟨w, rest, -, -, rfl⟩ | ⟨w, rest, -, -, hc⟩ := step_cases h
  · exact .inl (dividerTick_answersOk ht)
  · exact .inl (dividerTick_answersOk (s := dropInput s) ht)
  · exact .inl (.inl rfl)
  · exact .inl (.inl rfl)
  · obtain ⟨e, -, rfl⟩ | ⟨a, b, -, -, -, rfl⟩ | ⟨i, -, -, he⟩ := hc
    · exact .inr ⟨_, rfl⟩
    · exact .inl (.inl rfl)
    · exact (exec_answersOk_or_raises he).imp_left .inr

/-- Settles O45: a step that answers with an error is no more than `raiseException`, which writes the trace alone. -/
theorem exceptionsArePrecise : Obligations.ExceptionsArePrecise := by
  unfold Obligations.ExceptionsArePrecise
  intro s t r h hr herror
  obtain (hnone | ⟨cf, y1, y0, hok⟩) | ⟨e, rfl⟩ := step_answersOk_or_raises h
  · simp [hnone] at hr
  · obtain rfl : responseWord .ok cf y1 y0 = r := by simpa using hok.symm.trans hr
    simp at herror
  · rw [← hr]
    rfl

/-! ### The command after an error (R85) -/

/-- `t` has new responses on the trace of `s`, and from `s` with any other trace `f` leads to `t` with the same new ones on that. -/
def AppendsBlindly (f : State → Host.Outcome State Fault Refusal) (s t : State) : Prop :=
  ∃ new, t.responses = s.responses ++ new ∧ ∀ rs, f { s with responses := rs } = .next { t with responses := rs ++ new }

/-- R16: no command reads the trace. -/
theorem exec_appendsBlindly {i : Instr} {s t : State} (h : exec i s = .next t) : AppendsBlindly (exec i) s t := by
  obtain ⟨rfl, he⟩ | ⟨rfl, he⟩ | ⟨rfl, he⟩ | ⟨a, rfl, he⟩ | ⟨a, b, rfl, ht, he⟩ | ⟨a, b, rfl, ht, he⟩ := exec_cases i s
  all_goals obtain rfl := Host.Outcome.next.inj (he.symm.trans h)
  case inr.inr.inr.inr.inl => exact ⟨_, raiseException_responses _ _, fun rs => exec_divmod_of_traps a ht⟩
  case inr.inr.inr.inr.inr =>
    refine ⟨_, finishDivision_responses _ _, fun rs => (exec_divmod_of_runs (s := { s with responses := rs }) a ht).trans ?_⟩
    rw [finishDivision_eq, finishDivision_eq, responseWord_eq_responseOf]
    rfl
  all_goals exact ⟨_, respond_responses .., fun rs => rfl⟩

theorem acceptCommand_appendsBlindly {w : Word40} {s t : State} (hp : s.phase = .idle) (h : acceptCommand w s = .next t) :
    AppendsBlindly (acceptCommand w) s t := by
  have hagain (rs : List Word40) := acceptCommand_idle (s := { s with responses := rs }) w hp
  rw [acceptCommand_idle w hp] at h
  cases hd : decodeWord w with
  | error e =>
    simp only [hd] at h hagain
    obtain rfl := Host.Outcome.next.inj h
    exact ⟨_, raiseException_responses _ _, hagain⟩
  | ok i =>
    have hsame (rs : List Word40) : runsStepped i { s with responses := rs } = runsStepped i s := rfl
    simp only [hd, hsame] at h hagain
    split at h
    next hruns =>
      obtain rfl := Host.Outcome.next.inj h
      refine ⟨[], (List.append_nil _).symm, fun rs => ?_⟩
      rw [hagain, if_pos hruns, List.append_nil]
      rfl
    next hwhole =>
      obtain ⟨new, hnew, hexec⟩ := exec_appendsBlindly h
      exact ⟨new, hnew, fun rs => by rw [hagain, if_neg hwhole, hexec]⟩

/-- R82: the two ways a command of an idle block ends in error, as one. -/
theorem step_error {s : State} {w : Word40} {rest : List HostAction} (hp : s.phase = .idle)
    (hin : s.inputs = .command w :: rest)
    (herror : (∃ e, decodeWord w = .error e) ∨
      (∃ a, decodeWord w = .ok (.divmod a 0)) ∧ s.params.div0Policy = .fault) :
    ∃ r, responseOk r = false ∧ step s = .next { s with inputs := rest, responses := s.responses ++ [r] } := by
  obtain ⟨e, hd⟩ | ⟨⟨a, hd⟩, hfault⟩ := herror
  · exact ⟨_, responseOk_exception .illegalCommand s.c,
      (step_illegal_word hp hin hd).trans (congrArg _ (raiseException_dropInput _ hin))⟩
  · obtain rfl := decodeWord_eq_ok_iff.mp hd
    exact ⟨_, responseOk_exception .divisionByZero s.c,
      (step_refuses_division hp (divisionTraps_zero hfault) hin).trans (congrArg _ (raiseException_dropInput _ hin))⟩

/-- Settles O46: the error leaves its response in the trace alone, which the next command does not read. -/
theorem errorDoesNotAffectTheNextCommand : Obligations.ErrorDoesNotAffectTheNextCommand := by
  unfold Obligations.ErrorDoesNotAffectTheNextCommand
  intro s t w w' rest hp hin herror ht
  obtain ⟨r, hr, hstep⟩ := step_error hp hin herror
  have haccept : acceptCommand w' { s with inputs := rest } = .next t := ht
  obtain ⟨new, hnew, hagain⟩ := acceptCommand_appendsBlindly (s := { s with inputs := rest }) hp haccept
  refine ⟨r, new, hr, hnew, ?_⟩
  rw [runSteps_succ_of_next 1 hstep]
  have hnext : step { s with inputs := .command w' :: rest, responses := s.responses ++ [r] } = _ :=
    hagain (s.responses ++ [r])
  rw [runSteps_succ_of_next 0 hnext, runSteps_zero, List.append_assoc, List.singleton_append]

end Sys2Proof.Machine

/-! ## Runs of commands (70_reset_and_hazards.md R94, R106; 30_encoding.md R42) -/

namespace Sys2Proof.Machine

/-! ### One command word, answered whole -/

/-- What an idle block makes of a command word in the atomic form (R78). -/
def answerWord (w : Word40) (s : State) : Host.Outcome State Fault Refusal :=
  match decodeWord w with
  | .error _ => .next (raiseException .illegalCommand s)
  | .ok i => exec i s

theorem answerWord_illegal {w : Word40} {e : DecodeError} (hd : decodeWord w = .error e) (s : State) :
    answerWord w s = .next (raiseException .illegalCommand s) := by
  simp only [answerWord, hd]

@[simp] theorem answerWord_encode (i : Instr) (s : State) : answerWord (encode i) s = exec i s := by
  simp only [answerWord, decodeWord_encode]

/-- R78: an idle block answers every word in one step, but for a DIVMOD that it runs step by step. -/
theorem step_answers_word {s : State} {w : Word40} {rest : List HostAction} (hp : s.phase = .idle)
    (hin : s.inputs = .command w :: rest) (hwhole : ∀ i, decodeWord w = .ok i → runsStepped i s = false) :
    step s = answerWord w { s with inputs := rest } := by
  cases hd : decodeWord w with
  | error e => rw [answerWord_illegal hd, step_illegal_word hp hin hd, dropInput_eq hin]
  | ok i =>
    have hnot : ¬ runsStepped i (dropInput s) = true := Bool.not_eq_true _ ▸ hwhole i hd
    obtain rfl := decodeWord_eq_ok_iff.mp hd
    rw [answerWord_encode, step_command_idle hp hin, if_neg hnot, dropInput_eq hin]

theorem runsStepped_of_atomic (i : Instr) {s : State} (hform : s.params.divmodForm = .atomic) : runsStepped i s = false := by
  rw [← Bool.not_eq_true]
  intro h
  obtain ⟨a, b, -, hstepped, -⟩ := runsStepped_eq_true h
  exact absurd (hform.symm.trans hstepped) (by decide)

/-- The block has gone from `s` to `t` and answered once on the way, with `r`; it is idle, and its parameters and its
host's list are as before. -/
structure Answered (s : State) (r : Word40) (t : State) : Prop where
  responses : t.responses = s.responses ++ [r]
  possible : responsePossible r = true
  carry : rspCF r = t.c
  phase : t.phase = .idle
  inputs : t.inputs = s.inputs
  params : t.params = s.params

theorem respond_writeC_answered (st : Status) (cf : Flag) (y1 y0 : Word16) {s : State} (hp : s.phase = .idle) :
    Answered s (responseWord st cf y1 y0) (respond st cf y1 y0 (writeC cf s)) :=
  ⟨rfl, responsePossible_responseWord .., rspCF_responseWord .., hp, rfl, rfl⟩

theorem raiseException_answered (e : Exception) {s : State} (hp : s.phase = .idle) :
    Answered s (responseWord (exceptionStatus e) s.c 0 0) (raiseException e s) :=
  respond_writeC_answered _ s.c 0 0 hp

theorem finishDivision_answered (v : DivRegs) (s : State) : ∃ r, Answered s r (finishDivision v s) :=
  ⟨_, finishDivision_responses v s, responsePossible_responseWord .., by rw [rspCF_responseWord, finishDivision_c],
    finishDivision_phase v s, finishDivision_inputs v s, finishDivision_params v s⟩

theorem exec_answered (i : Instr) {s : State} (hp : s.phase = .idle) : ∃ t r, exec i s = .next t ∧ Answered s r t := by
  obtain ⟨-, he⟩ | ⟨-, he⟩ | ⟨-, he⟩ | ⟨a, -, he⟩ | ⟨a, b, -, -, he⟩ | ⟨a, b, -, -, he⟩ := exec_cases i s
  · exact ⟨_, _, he, respond_writeC_answered _ _ _ _ hp⟩
  · exact ⟨_, _, he, respond_writeC_answered _ _ _ _ hp⟩
  · exact ⟨_, _, he, respond_writeC_answered .ok s.c _ _ hp⟩
  · exact ⟨_, _, he, respond_writeC_answered _ _ _ _ hp⟩
  · exact ⟨_, _, he, raiseException_answered _ hp⟩
  · obtain ⟨r, hr⟩ := finishDivision_answered (divRun a b) s
    exact ⟨_, r, he, hr⟩

theorem answerWord_answered (w : Word40) {s : State} (hp : s.phase = .idle) :
    ∃ t r, answerWord w s = .next t ∧ Answered s r t := by
  cases hd : decodeWord w with
  | error e => exact ⟨_, _, answerWord_illegal hd s, raiseException_answered _ hp⟩
  | ok i =>
    obtain rfl := decodeWord_eq_ok_iff.mp hd
    rw [answerWord_encode]
    exact exec_answered i hp

/-- R94: in the atomic form every word is answered in one step. -/
theorem step_answered {s : State} {w : Word40} {rest : List HostAction} (hp : s.phase = .idle)
    (hform : s.params.divmodForm = .atomic) (hin : s.inputs = .command w :: rest) :
    ∃ t r, step s = .next t ∧ Answered { s with inputs := rest } r t := by
  rw [step_answers_word hp hin fun i _ => runsStepped_of_atomic i hform]
  exact answerWord_answered w hp

/-- Settles O11: a step appends what `respond` built or nothing, an answered word gets one response with the new `C`, and the
reset event appends none. -/
theorem oneResponsePerAnsweredCommand : Obligations.OneResponsePerAnsweredCommand := by
  unfold Obligations.OneResponsePerAnsweredCommand
  refine ⟨fun s t h => ?_, fun s w rest hp hin hform => ?_, ?_⟩
  · obtain hnone | ⟨st, cf, y1, y0, hone⟩ := step_respondsAtMostOnce h
    · exact .inl hnone
    · exact .inr ⟨_, hone⟩
  · obtain ⟨t, r, hstep, hr⟩ := step_answered hp hform hin
    exact ⟨t, r, hstep, hr.responses, hr.carry, hr.phase⟩
  · rintro s w rest (hin | ⟨hp, hin⟩)
    · exact ⟨_, step_reset hin, rfl⟩
    · exact ⟨_, (step_aborted hin).trans (acceptAborted_idle hp), rfl⟩

/-! ### Every command of a run (R94) -/

/-- Settles O50: by induction on the words; after each the block is as ready as before it. -/
theorem everyCommandIsAnswered : Obligations.EveryCommandIsAnswered := by
  unfold Obligations.EveryCommandIsAnswered
  intro s ws
  induction ws generalizing s with
  | nil => exact fun hp _ => ⟨{ s with inputs := [] }, [], rfl, (List.append_nil _).symm, rfl, rfl, hp, rfl⟩
  | cons w ws ih =>
    intro hp hform
    obtain ⟨t, r, hstep, ht⟩ := step_answered (s := { s with inputs := hostScript (w :: ws) }) hp hform rfl
    obtain ⟨u, rs, hrun, hresponses, hlength, hpossible, hphase, hinputs⟩ := ih t ht.phase (ht.params ▸ hform)
    have hin : t.inputs = hostScript ws := ht.inputs
    rw [← hin] at hrun
    refine ⟨u, r :: rs, (runSteps_succ_of_next _ hstep).trans hrun, ?_, congrArg (· + 1) hlength, ?_, hphase, hinputs⟩
    · rw [hresponses, ht.responses, List.append_assoc, List.singleton_append]
    · rw [List.all_cons, ht.possible, hpossible, Bool.true_and]

/-! ### A run of ROLs (R58) -/

/-- Settles O26: by induction on the words; what a ROL shifts out, at 2^16 times the weight, the next one shifts in. -/
theorem rolChainShiftsManyWords : Obligations.RolChainShiftsManyWords := by
  unfold Obligations.RolChainShiftsManyWords
  intro s vs
  induction vs generalizing s with
  | nil => exact fun _ => ⟨{ s with inputs := [] }, [], rfl, (List.append_nil _).symm, rfl, by simp [wordsValue]⟩
  | cons v vs ih =>
    intro hp
    have hstep : step { s with inputs := hostScript ((v :: vs).map fun v => encode (.rol v)) } = _ :=
      step_command_idle hp rfl
    obtain ⟨t, rs, hrun, hresponses, hlength, hvalue⟩ :=
      ih (respond .ok (rol16 v s.c).2 0 (rol16 v s.c).1 (writeC (rol16 v s.c).2 s)) hp
    refine ⟨t, responseWord .ok (rol16 v s.c).2 0 (rol16 v s.c).1 :: rs, (runSteps_succ_of_next _ hstep).trans hrun, ?_,
      congrArg (· + 1) hlength, ?_⟩
    · rw [hresponses, respond_responses, List.append_assoc, List.singleton_append]
      rfl
    · have hsum := rol16_conserves v s.c
      simp only [List.map_cons, rspY0_responseWord, wordsValue, List.length_cons, pow_succ', Nat.mul_assoc]
      simp only [respond_c, writeC_c] at hvalue
      omega

end Sys2Proof.Machine

/-! ## The two forms of DIVMOD (42_divmod.md R78, 70_reset_and_hazards.md R106) -/

namespace Sys2Proof.Machine

/-! ### A division among a waiting host's steps -/

/-- The block of `s` on its way through the division of the word `w`, with the host actions `l` to come. -/
def divisionState (w : Word40) (s : State) (v : DivRegs) (ph : Phase) (l : List HostAction) : State :=
  { s with div := v, phase := ph, outstanding := some w, inputs := l }

/-- The phase after `k` iterations (R78). -/
def afterIteration (k : Nat) : Phase := if k < 16 then .iter .a else .close

section Division

variable {w : Word40} {s : State}

theorem beginDivision_eq_divisionState (l : List HostAction) :
    beginDivision w { s with inputs := l } = divisionState w s (divInit (operandA w)) (.iter .a) l := rfl

theorem run_iteration {v : DivRegs} (hk : v.k < 16) (l : List HostAction) :
    runSteps 3 (divisionState w s v (.iter .a) (.wait :: .wait :: .wait :: l)) =
      .next (divisionState w s (divIteration (operandB w) v) (afterIteration (v.k + 1)) l) := by
  have ha : step (divisionState w s v (.iter .a) (.wait :: .wait :: .wait :: l)) =
      .next (divisionState w s (divStepA v) (.iter .b) (.wait :: .wait :: l)) :=
    (step_wait rfl).trans (dividerTick_iter_a rfl hk)
  have hb : step (divisionState w s (divStepA v) (.iter .b) (.wait :: .wait :: l)) =
      .next (divisionState w s (divStepB (divStepA v)) (.iter .c) (.wait :: l)) :=
    (step_wait rfl).trans (dividerTick_iter_b rfl hk)
  have hc : step (divisionState w s (divStepB (divStepA v)) (.iter .c) (.wait :: l)) =
      .next (divisionState w s (divIteration (operandB w) v) (afterIteration (v.k + 1)) l) :=
    (step_wait rfl).trans (dividerTick_iter_c rfl hk rfl)
  rw [runSteps_succ_of_next 2 ha, runSteps_succ_of_next 1 hb, runSteps_succ_of_next 0 hc, runSteps_zero]

theorem run_iterations {j : Nat} (hj : j ≤ 16) (l : List HostAction) :
    runSteps (j * 3) (divisionState w s (divInit (operandA w)) (.iter .a) (List.replicate (j * 3) .wait ++ l)) =
      .next (divisionState w s (divIterations (operandB w) j (divInit (operandA w))) (afterIteration j) l) := by
  induction j generalizing l with
  | zero => rfl
  | succ j ih =>
    have hk : (divIterations (operandB w) j (divInit (operandA w))).k = j := by simp
    have hnext := run_iteration (w := w) (s := s) (hk.trans_lt hj) l
    have hphase : afterIteration j = .iter .a := if_pos hj
    rw [Nat.succ_mul, List.replicate_add, List.append_assoc, runSteps_add 3 (ih (by omega) _), hphase]
    rw [hk] at hnext
    exact hnext

/-- R77, R78: 48 steps of iterations, the closing rotate, and the step that answers. -/
theorem run_division (l : List HostAction) :
    runSteps 50 (divisionState w s (divInit (operandA w)) (.iter .a) (List.replicate 50 .wait ++ l)) =
      .next (finishDivision (divRun (operandA w) (operandB w)) { s with inputs := l }) := by
  have hiter := run_iterations (w := w) (s := s) le_rfl (.wait :: .wait :: l)
  have hclose :
      step (divisionState w s (divIterations (operandB w) 16 (divInit (operandA w))) .close (.wait :: .wait :: l)) =
        .next (divisionState w s (divRun (operandA w) (operandB w)) .done (.wait :: l)) :=
    (step_wait rfl).trans (dividerTick_close rfl)
  have hdone : step (divisionState w s (divRun (operandA w) (operandB w)) .done (.wait :: l)) =
      .next (finishDivision (divRun (operandA w) (operandB w)) { s with inputs := l }) := by
    refine (step_wait rfl).trans ((dividerTick_done rfl).trans ?_)
    rw [finishDivision_eq, finishDivision_eq]
    rfl
  have hwaits : List.replicate 50 HostAction.wait ++ l = List.replicate (16 * 3) .wait ++ (.wait :: .wait :: l) := rfl
  rw [hwaits]
  exact (runSteps_add 2 hiter).trans
    ((runSteps_succ_of_next 1 hclose).trans ((runSteps_succ_of_next 0 hdone).trans (runSteps_zero _)))

end Division

/-- A host that waits leaves an idle block as it is (R93). -/
theorem run_waits_idle {s : State} {l : List HostAction} (n : Nat) (hp : s.phase = .idle) :
    runSteps n { s with inputs := List.replicate n .wait ++ l } = .next { s with inputs := l } := by
  induction n with
  | zero => rfl
  | succ n ih =>
    have hstep : step { s with inputs := List.replicate (n + 1) .wait ++ l } =
        .next { s with inputs := List.replicate n .wait ++ l } := (step_wait rfl).trans (dividerTick_idle hp)
    rw [runSteps_succ_of_next n hstep, ih]

theorem run_stepped_division {s : State} {a b : Word16} {rest : List HostAction} (hp : s.phase = .idle)
    (hform : s.params.divmodForm = .stepped) (hruns : divisionTraps b s = false)
    (hin : s.inputs = .command (encode (.divmod a b)) :: (List.replicate 50 .wait ++ rest)) :
    runSteps 51 s = exec (.divmod a b) { s with inputs := rest } := by
  have ha : operandA (encode (.divmod a b)) = a := aField_joinCommand _
  have hb : operandB (encode (.divmod a b)) = b := bField_joinCommand _
  rw [runSteps_succ_of_next 50 (step_begins_division hp hform hruns hin), dropInput_eq hin, beginDivision_eq_divisionState,
    run_division, ha, hb, exec_divmod_of_runs a (s := { s with inputs := rest }) hruns]

/-- Settles O41: the 49 internal steps reach `divRun`, and the last one ends the command as the atomic form does. -/
theorem steppedDivisionEqualsAtomic : Obligations.SteppedDivisionEqualsAtomic := by
  unfold Obligations.SteppedDivisionEqualsAtomic
  intro s a b rest hp hform hin hb
  have hruns := divisionTraps_eq_false hb
  have hexec := exec_divmod_of_runs a (s := { s with inputs := rest }) hruns
  exact ⟨_, (run_stepped_division hp hform hruns hin).trans hexec, hexec⟩

/-! ### No command reads the form or the host's list -/

/-- The state `s` with the given form among its parameters, and the given host actions to come. -/
def withHost (form : Config.DivmodForm) (l : List HostAction) (s : State) : State :=
  { s with params := { s.params with divmodForm := form }, inputs := l }

section WithHost

variable {s t : State} (form : Config.DivmodForm) (l : List HostAction)

theorem exec_withHost {i : Instr} (h : exec i s = .next t) : exec i (withHost form l s) = .next (withHost form l t) := by
  obtain ⟨rfl, he⟩ | ⟨rfl, he⟩ | ⟨rfl, he⟩ | ⟨a, rfl, he⟩ | ⟨a, b, rfl, ht, he⟩ | ⟨a, b, rfl, ht, he⟩ := exec_cases i s
  all_goals obtain rfl := Host.Outcome.next.inj (he.symm.trans h)
  case inr.inr.inr.inr.inl => exact exec_divmod_of_traps a ht
  case inr.inr.inr.inr.inr =>
    rw [exec_divmod_of_runs a (s := withHost form l s) ht, finishDivision_eq, finishDivision_eq]
    rfl
  all_goals rfl

theorem answerWord_withHost {w : Word40} (h : answerWord w s = .next t) :
    answerWord w (withHost form l s) = .next (withHost form l t) := by
  cases hd : decodeWord w with
  | error e =>
    obtain rfl := Host.Outcome.next.inj ((answerWord_illegal hd s).symm.trans h)
    exact answerWord_illegal hd _
  | ok i =>
    obtain rfl := decodeWord_eq_ok_iff.mp hd
    rw [answerWord_encode] at h ⊢
    exact exec_withHost form l h

end WithHost

/-! ### Both forms, word by word and run by run -/

section Forms

variable {s t : State} {w : Word40} (hp : s.phase = .idle) (h : answerWord w s = .next t) (l : List HostAction)
include hp h

/-- The atomic form answers in one step. -/
theorem step_atomic_word : step (withHost .atomic (.command w :: l) s) = .next (withHost .atomic l t) :=
  (step_answers_word (s := withHost .atomic (.command w :: l) s) hp rfl fun i _ => runsStepped_of_atomic i rfl).trans
    (answerWord_withHost .atomic l h)

/-- The stepped form answers within 51 steps of a host that waits, and ends where the atomic form does. -/
theorem run_stepped_word :
    runSteps 51 (withHost .stepped (.command w :: (List.replicate 50 .wait ++ l)) s) = .next (withHost .stepped l t) := by
  by_cases hruns : ∃ a b, decodeWord w = .ok (.divmod a b) ∧ divisionTraps b s = false
  · obtain ⟨a, b, hd, htraps⟩ := hruns
    obtain rfl := decodeWord_eq_ok_iff.mp hd
    rw [answerWord_encode] at h
    exact (run_stepped_division (s := withHost .stepped _ s) hp rfl htraps rfl).trans (exec_withHost .stepped l h)
  · have hwhole (i : Instr) (hd : decodeWord w = .ok i) : runsStepped i (withHost .stepped [] s) = false := by
      rw [← Bool.not_eq_true]
      intro hi
      obtain ⟨a, b, rfl, -, htraps⟩ := runsStepped_eq_true hi
      exact hruns ⟨a, b, hd, htraps⟩
    have hstep : step (withHost .stepped (.command w :: (List.replicate 50 .wait ++ l)) s) = _ :=
      (step_answers_word (s := withHost .stepped _ s) hp rfl hwhole).trans (answerWord_withHost .stepped _ h)
    obtain ⟨t', r, ht', hanswered⟩ := answerWord_answered w hp
    obtain rfl := Host.Outcome.next.inj (ht'.symm.trans h)
    exact (runSteps_succ_of_next 50 hstep).trans (run_waits_idle (s := withHost .stepped l t') 50 hanswered.phase)

end Forms

/-- After every word both forms are in one state, but for the form and the host. -/
theorem run_both_forms (ws : List Word40) {s : State} (hp : s.phase = .idle) :
    ∃ t, runSteps ws.length (withHost .atomic (hostScript ws) s) = .next (withHost .atomic [] t) ∧
      runSteps (51 * ws.length) (withHost .stepped (patientScript ws) s) = .next (withHost .stepped [] t) := by
  induction ws generalizing s with
  | nil => exact ⟨s, rfl, rfl⟩
  | cons w ws ih =>
    obtain ⟨t, r, h, ht⟩ := answerWord_answered w hp
    obtain ⟨u, hatomic, hstepped⟩ := ih ht.phase
    refine ⟨u, (runSteps_succ_of_next _ (step_atomic_word hp h _)).trans hatomic, ?_⟩
    rw [List.length_cons, Nat.mul_succ, Nat.add_comm]
    exact (runSteps_add _ (run_stepped_word hp h _)).trans hstepped

/-- Settles O42: what a run shows is in neither the form nor the host. -/
theorem formsAgreeOnEveryRun : Obligations.FormsAgreeOnEveryRun := by
  unfold Obligations.FormsAgreeOnEveryRun
  intro s ws hp
  obtain ⟨t, hatomic, hstepped⟩ := run_both_forms ws hp
  exact ⟨_, _, hatomic, hstepped, rfl⟩

end Sys2Proof.Machine

/-! ## Several instances (60_exceptions.md R91) -/

namespace Sys2Proof.Machine

/-- R91: what becomes of number `i` is its own steps, as many as the order names it. -/
theorem platformRun_getElem? (js : List Nat) (p : List Instance) (i : Nat) :
    (platformRun js p)[i]? = p[i]?.map instanceStep^[js.count i] := by
  induction js generalizing p with
  | nil => simp
  | cons j js ih =>
    rw [platformRun_cons, ih, platformStep_getElem?, List.count_cons]
    by_cases h : j = i
    · simp [h, Function.iterate_succ]
    · simp [h]

theorem platformRun_length (js : List Nat) (p : List Instance) : (platformRun js p).length = p.length := by
  induction js generalizing p with
  | nil => rfl
  | cons j js ih => rw [platformRun_cons, ih, platformStep_length]

theorem iterate_instanceStep_fault (n : Nat) (r : Fault) : instanceStep^[n] (.fault r) = .fault r :=
  Function.iterate_fixed (instanceStep_fault r) n

theorem iterate_instanceStep_refused (n : Nat) (r : Refusal) : instanceStep^[n] (.refused r) = .refused r :=
  Function.iterate_fixed (instanceStep_refused r) n

/-- The steps of a single run are those of `runSteps`. -/
theorem iterate_instanceStep_next (n : Nat) (s : State) : instanceStep^[n] (.next s) = runSteps n s := by
  induction n generalizing s with
  | zero => rfl
  | succ n ih =>
    rw [Function.iterate_succ_apply, instanceStep_next, runSteps]
    cases step s with
    | next t => exact ih t
    | fault r => exact iterate_instanceStep_fault n r
    | refused r => exact iterate_instanceStep_refused n r

/-- Settles O49: a step of one run touches no other, and a run that has ended is fixed by its own. -/
theorem instancesAreIndependent : Obligations.InstancesAreIndependent := by
  unfold Obligations.InstancesAreIndependent
  refine fun js p => ⟨platformRun_length js p, fun i => ⟨fun s h => ?_, fun r h => ?_, fun r h => ?_⟩⟩
  · rw [platformRun_getElem?, h, Option.map_some, iterate_instanceStep_next]
  · rw [platformRun_getElem?, h, Option.map_some, iterate_instanceStep_fault]
  · rw [platformRun_getElem?, h, Option.map_some, iterate_instanceStep_refused]

end Sys2Proof.Machine
